-- ==== Sys2Proof/Word.lean ====
section
/-! DEFINITION. The machine's word types and their plainest fields: 16-bit words, 12-bit word addresses, 4-bit opcodes
and the bytes that back a word. -/

namespace Sys2Proof

/-- A byte of the backing store (20_memory.md R37). -/
abbrev Byte := BitVec 8

/-- A 16-bit word (00_scope.md R4). -/
abbrev Word := BitVec 16

/-- A 12-bit word address (00_scope.md R4). -/
abbrev Addr := BitVec 12

/-- A 4-bit opcode (00_scope.md R4). -/
abbrev Opcode := BitVec 4

end Sys2Proof
end

