-- ==== Sys2Proof/Config.lean ====
section
/-! DEFINITION. What is fixed before a run: the memory size parameter `MEM_WORDS` and the opcode table, with the rule
by which the host registers handlers. -/

namespace Sys2Proof.Config

/-- The values `MEM_WORDS` may take (00_scope.md R5; 92_eei_decisions.md D1). Log 1. -/
inductive MemSize where
  | w4095   -- the default: address 0xFFF has no word behind it
  | w4096   -- every 12-bit address has a word
  deriving DecidableEq, Repr

/-- `MEM_WORDS` as a number. -/
def MemSize.words : MemSize → Nat
  | .w4095 => 4095
  | .w4096 => 4096

/-- The nine default handlers, by the source's names (30_encoding.md R56). -/
inductive Handler where
  | load | store | add | subt | input | output | halt | skipcond | jump
  deriving DecidableEq, Repr

/-- An opcode table: a finite map from opcodes to handlers (40_fde_cycle.md R86), for any type of handlers. -/
abbrev OpcodeTable (η : Type) := List (Opcode × η)

/-- The handler the table holds for an opcode, if it is registered. -/
def OpcodeTable.lookup {η : Type} : OpcodeTable η → Opcode → Option η
  | [], _ => none
  | (k, h) :: t, op => if k = op then some h else OpcodeTable.lookup t op

/-- The configuration error of duplicate registration (60_exceptions.md R144): the host sees it at setup, and the
table it holds stays the one it passed in. -/
inductive ConfigError where
  | duplicateOpcode (op : Opcode)
  deriving DecidableEq, Repr

/-- Registration: an unregistered opcode gains the handler, a registered one is an error (40_fde_cycle.md R86, R87). -/
def OpcodeTable.register {η : Type} (t : OpcodeTable η) (op : Opcode) (h : η) : Except ConfigError (OpcodeTable η) :=
  match t.lookup op with
  | some _ => .error (.duplicateOpcode op)
  | none => .ok ((op, h) :: t)

/-- The default table: opcodes 1 to 9 are registered, 0 and 10 to 15 are not (30_encoding.md R56). `EXT` is empty
(00_scope.md R6; 92_eei_decisions.md D9). Log 9. -/
def defaultTable : OpcodeTable Handler :=
  [(0b0001#4, .load), (0b0010#4, .store), (0b0011#4, .add), (0b0100#4, .subt), (0b0101#4, .input),
   (0b0110#4, .output), (0b0111#4, .halt), (0b1000#4, .skipcond), (0b1001#4, .jump)]

end Sys2Proof.Config
end

