-- ==== Sys2Proof/Syntax.lean ====
section
/-! DEFINITION. The instruction set: one constructor per row of spec/opcode_table.json. -/

namespace Sys2Proof

/-- The 2-bit condition of SKIPCOND (44_control.md R131). `reserved` is `0b11`, which never skips (30_encoding.md R59). -/
inductive SkipCond where
  | negative | zero | positive | reserved
  deriving DecidableEq, Repr

/-- An instruction of the default table (30_encoding.md R53, R56). Use A carries the address field; uses Z and S keep the
bits the handler ignores, because Decode copies the whole field into `MAR` (R55; 40_fde_cycle.md R82). -/
inductive Instr where
  | load (x : Addr)
  | store (x : Addr)
  | add (x : Addr)
  | subt (x : Addr)
  | input (ignored : Addr)
  | output (ignored : Addr)
  | halt (ignored : Addr)
  | skipcond (c : SkipCond) (ignored : BitVec 10)
  | jump (x : Addr)
  deriving DecidableEq, Repr

/-- The assembler mnemonic (30_encoding.md R63, R65), spelt as spec/opcode_table.json spells it. -/
def Instr.mnemonic : Instr → String
  | .load _ => "LOAD"
  | .store _ => "STORE"
  | .add _ => "ADD"
  | .subt _ => "SUBT"
  | .input _ => "INPUT"
  | .output _ => "OUTPUT"
  | .halt _ => "HALT"
  | .skipcond _ _ => "SKIPCOND"
  | .jump _ => "JUMP"

end Sys2Proof
end

