-- ==== Sys2Proof/WellFormed.lean ====
section
/-! DEFINITION. Which instruction terms are legal. On this hardware the types of `Instr` already say it: every value of
every field is a legal encoding (30_encoding.md R53, R55, R60), so `wellFormed` refuses nothing. The narrower check is
the assembler's: the words its zero-operand mnemonics produce have zero in the ignored field (R65). -/

namespace Sys2Proof

/-- Legal for the hardware. Use A: every 12-bit address is a legal operand (30_encoding.md R54; 20_memory.md R39). Use Z:
the ignored bits are not required to be zero (R60). Use S: all four conditions are encodings (R59). -/
def Instr.wellFormed : Instr → Bool
  | .load _ => true
  | .store _ => true
  | .add _ => true
  | .subt _ => true
  | .input _ => true
  | .output _ => true
  | .halt _ => true
  | .skipcond _ _ => true
  | .jump _ => true

/-- The terms whose word the assembler's mnemonic lines can produce: INPUT, OUTPUT and HALT assemble to the fixed words
with a zero field (30_encoding.md R65; 92_eei_decisions.md D15); every operand of the other six can be written (R64). -/
def Instr.assemblerForm : Instr → Bool
  | .load _ => true
  | .store _ => true
  | .add _ => true
  | .subt _ => true
  | .input ign => ign == 0#12
  | .output ign => ign == 0#12
  | .halt ign => ign == 0#12
  | .skipcond _ _ => true
  | .jump _ => true

end Sys2Proof
end

