-- ==== Sys2Proof/Decode.lean ====
section
/-! DEFINITION. The word codec, the decoder (total on any bytes, rejecting by name) and after it the encoder. -/

namespace Sys2Proof

/-- `opcode(w) = w[15:12]` (30_encoding.md R51). -/
def opcode (w : Word) : Opcode := w.extractLsb' 12 4

/-- `addr(w) = w[11:0]` (30_encoding.md R51). -/
def addr (w : Word) : Addr := w.extractLsb' 0 12

/-- `encode(op, a) = op ++ a` (30_encoding.md R51). -/
def codec (op : Opcode) (a : Addr) : Word := op ++ a

/-- A word from its two backing bytes, high byte first (20_memory.md R37). -/
def wordOfBytes (hi lo : Byte) : Word := hi ++ lo

/-- The high byte `w[15:8]` of a word (20_memory.md R37). -/
def highByte (w : Word) : Byte := w.extractLsb' 8 8

/-- The low byte `w[7:0]` of a word (20_memory.md R37). -/
def lowByte (w : Word) : Byte := w.extractLsb' 0 8

/-- The condition a 2-bit field selects (44_control.md R131). -/
def SkipCond.ofBits (b : BitVec 2) : SkipCond :=
  if b = 0b00#2 then .negative else if b = 0b01#2 then .zero else if b = 0b10#2 then .positive else .reserved

/-- The instruction a handler executes on an address field (30_encoding.md R53): SKIPCOND splits the field into bits
11:10 and 9:0, the others take it whole. -/
def instrOf (h : Config.Handler) (a : Addr) : Instr :=
  match h with
  | .load => .load a
  | .store => .store a
  | .add => .add a
  | .subt => .subt a
  | .input => .input a
  | .output => .output a
  | .halt => .halt a
  | .skipcond => .skipcond (SkipCond.ofBits (a.extractLsb' 10 2)) (a.extractLsb' 0 10)
  | .jump => .jump a

/-- Why bytes are no instruction. -/
inductive DecodeReject where
  /-- The opcode has no handler in the table (30_encoding.md R58). -/
  | unregistered (op : Opcode)
  /-- Fewer bytes than the one word every instruction has (30_encoding.md R50). Cannot come from a fetched word. -/
  | truncated
  deriving DecidableEq, Repr

/-- Decoding a word through the default table: dispatch reads only the opcode (30_encoding.md R55; 40_fde_cycle.md R83). -/
def decodeWord (w : Word) : Except DecodeReject Instr :=
  match Config.defaultTable.lookup (opcode w) with
  | some h => .ok (instrOf h (addr w))
  | none => .error (.unregistered (opcode w))

/-- Decoding from bytes: one big-endian word is taken (30_encoding.md R50; 20_memory.md R37), the rest is handed on. -/
def decodeBytes : List Byte → Except DecodeReject (Instr × List Byte)
  | hi :: lo :: rest => (decodeWord (wordOfBytes hi lo)).map fun i => (i, rest)
  | _ => .error .truncated

/-- The word whose bits, numbered as spec/opcode_table.json numbers them, are the low `nbits` bits of `w`. -/
def tableWord (nbits w : Nat) : Word := BitVec.ofNat 16 (w % 2 ^ nbits)

/-- What the decoder reads from a table row's word, laid out in memory order. -/
def decodeTableWord (nbits w : Nat) : Option Instr :=
  match decodeBytes [highByte (tableWord nbits w), lowByte (tableWord nbits w)] with
  | .ok (i, _) => some i
  | .error _ => none

/-! ### The encoder, written from the table of 30_encoding.md R56 and the field uses of R53 -/

/-- The 2-bit field of a condition (44_control.md R131). -/
def SkipCond.bits : SkipCond → BitVec 2
  | .negative => 0b00#2
  | .zero => 0b01#2
  | .positive => 0b10#2
  | .reserved => 0b11#2

/-- The opcode of an instruction (30_encoding.md R56, `match` column). -/
def Instr.opcode : Instr → Opcode
  | .load _ => 1#4
  | .store _ => 2#4
  | .add _ => 3#4
  | .subt _ => 4#4
  | .input _ => 5#4
  | .output _ => 6#4
  | .halt _ => 7#4
  | .skipcond _ _ => 8#4
  | .jump _ => 9#4

/-- The 12-bit address field of an instruction (30_encoding.md R53). -/
def Instr.addressField : Instr → Addr
  | .load x => x
  | .store x => x
  | .add x => x
  | .subt x => x
  | .input ign => ign
  | .output ign => ign
  | .halt ign => ign
  | .skipcond c ign => c.bits ++ ign
  | .jump x => x

/-- The word of an instruction (30_encoding.md R51). -/
def encode (i : Instr) : Word := codec i.opcode i.addressField

/-- The two bytes of an instruction in memory order (20_memory.md R37). -/
def encodeBytes (i : Instr) : List Byte := [highByte (encode i), lowByte (encode i)]

end Sys2Proof
end

