-- ==== Sys2Proof/Machine/State.lean ====
section
/-! DEFINITION. The machine's state as plain data, its value after reset, and the reasons a step can stop. -/

namespace Sys2Proof.Machine

/-- The execution state, the machine's only status flag (10_state.md R17). -/
inductive ExecutionState where
  | executing | halted
  deriving DecidableEq, Repr

/-- Memory as its backing bytes (20_memory.md R37): a list of (byte address, byte) in the canonical form
`Memory.wf` of Ops.lean. The word at address `a` is bytes `2a` and `2a + 1`. -/
abbrev Memory := List Host.Cell

/-- The architectural state (10_state.md section 1), the two records `IN` and `OUT` a model keeps (00_scope.md R7) and
the memory size it was configured with (R5). -/
structure State where
  /-- `AC`, the accumulator (10_state.md R10). -/
  ac : Word
  /-- `IR`, the fetched word (10_state.md R11). -/
  ir : Word
  /-- `PC`, the address of the next instruction (10_state.md R12). -/
  pc : Addr
  /-- `MAR`, the memory address register (10_state.md R13). -/
  mar : Addr
  /-- `MBR`, the memory buffer register (10_state.md R14). -/
  mbr : Word
  /-- `InREG`, the input register (10_state.md R15). -/
  inReg : Word
  /-- `OutREG`, the output register (10_state.md R16). -/
  outReg : Word
  /-- `STATE` (10_state.md R17). -/
  execState : ExecutionState
  /-- `M` (10_state.md R18). -/
  mem : Memory
  /-- `IN` from its current position on: the words the host has supplied and no INPUT has taken (00_scope.md R7);
  the words to come, finitely or infinitely many, are a run's parameter. Log 3. -/
  inp : List Word
  /-- `OUT`, the words output so far, oldest first (00_scope.md R7). -/
  out : List Word
  /-- `MEM_WORDS`, configuration: no operation writes it (00_scope.md R5). Log 1. -/
  memSize : Config.MemSize
  deriving DecidableEq, Repr

/-- The machine right after reset: the load of the empty image (70_reset_and_hazards.md R172 to R175), with `MEM_WORDS`
at its default (00_scope.md R5). The spec gives `InREG` and `OutREG` no value here: DESIGN CHOICE zero, log 2; no input
word has been supplied: DESIGN CHOICE, log 3. -/
def State.reset : State where
  ac := 0x0000#16
  ir := 0x0000#16
  pc := 0x000#12
  mar := 0x000#12
  mbr := 0x0000#16
  inReg := 0x0000#16
  outReg := 0x0000#16
  execState := .executing
  mem := []
  inp := []
  out := []
  memSize := .w4095

/-- The conditions a cycle can raise (60_exceptions.md R140). Each carries the value the spec says it carries and the
machine state the raise leaves behind (R149), which the host may inspect; the run is over (R151). Log 6. -/
inductive Fault where
  /-- Raised by Execute when the opcode table has no handler for the fetched word (60_exceptions.md R141). Safe: the spec
  says the machine reports it and does not go on. -/
  | invalidInstruction (op : Opcode) (left : State)
  /-- Raised by Fetch, LOAD, STORE, ADD and SUBT at an address with no word behind it (60_exceptions.md R142). Safe: the
  spec says the machine reports it and does not go on. -/
  | addressOutOfRange (raw : Nat) (left : State)
  deriving DecidableEq, Repr

/-- The state a fault leaves behind (60_exceptions.md R149). -/
def Fault.left : Fault → State
  | .invalidInstruction _ s => s
  | .addressOutOfRange _ s => s

/-- Why the model answers neither a next state nor a fault. -/
inductive Refusal where
  /-- Stands for an instruction without a meaning; no arm of `exec` answers it any more. Safe. -/
  | notModelled (mnemonic : String)
  /-- Raised by `step` alone, when it is called while `STATE = Halted`: the spec gives that call no meaning
  (40_fde_cycle.md R88). Safe. Log 5. -/
  | notExecuting
  deriving DecidableEq, Repr

/-- The three outcomes of an instruction or a step of this machine. -/
abbrev Outcome := Host.Outcome State Fault Refusal

end Sys2Proof.Machine
end

