-- ==== Sys2Proof/Machine/Ops.lean ====
section
/-! DEFINITION. The named operations over memory and registers, raising a fault, and Fetch and Decode. -/

namespace Sys2Proof.Machine

/-! ### Memory: the byte store -/

/-- What a byte the list does not name reads as: load fills with zeros (70_reset_and_hazards.md R172). Log 8. -/
def Memory.unlisted : Byte := 0#8

/-- The canonical form: addresses strictly rising, no entry equal to what an unlisted address reads as. -/
abbrev Memory.wf (m : Memory) : Prop :=
  List.Pairwise (fun c d : Host.Cell => c.1 < d.1) m ∧ ∀ c ∈ m, c.2 ≠ Memory.unlisted

/-- Every listed byte belongs to a word below `words` (20_memory.md R32). -/
abbrev Memory.within (words : Nat) (m : Memory) : Prop := ∀ c ∈ m, c.1 < 2 * words

/-- The byte at a byte address of the backing store. -/
def Memory.readByte : Memory → Nat → Byte
  | [], _ => Memory.unlisted
  | (k, v) :: m, a => if k = a then v else Memory.readByte m a

/-- The list without its entries at byte address `a`. -/
def Memory.eraseByte (m : Memory) (a : Nat) : Memory := m.filter fun c => c.1 != a

/-- The list with an entry put before the first larger address. -/
def Memory.insertByte : Memory → Nat → Byte → Memory
  | [], a, b => [(a, b)]
  | (k, v) :: m, a, b => if a < k then (a, b) :: (k, v) :: m else (k, v) :: Memory.insertByte m a b

/-- Replace the byte at a byte address, keeping the canonical form. -/
def Memory.writeByte (m : Memory) (a : Nat) (b : Byte) : Memory :=
  if b = Memory.unlisted then m.eraseByte a else (m.eraseByte a).insertByte a b

/-- The word at word address `a`: bytes `2a` and `2a + 1`, high byte first (20_memory.md R37). -/
def Memory.readWord (m : Memory) (a : Nat) : Word := wordOfBytes (m.readByte (2 * a)) (m.readByte (2 * a + 1))

/-- Replace the word at word address `a` (20_memory.md R37). -/
def Memory.writeWord (m : Memory) (a : Nat) (w : Word) : Memory :=
  (m.writeByte (2 * a) (highByte w)).writeByte (2 * a + 1) (lowByte w)

/-- The canonical memory whose bytes from `start` on are the given ones and zero elsewhere. -/
def Memory.ofBytes : Nat → List Byte → Memory
  | _, [] => []
  | start, b :: bs =>
    if b = Memory.unlisted then Memory.ofBytes (start + 1) bs else (start, b) :: Memory.ofBytes (start + 1) bs

/-- A raw address reduced to 12 bits, the mask of `get` and `set` (20_memory.md R34). -/
def maskRaw (raw : Nat) : Nat := raw % 4096

/-- The memory component's `get`: the raw address is checked first, then masked (20_memory.md R34). `none` is the
out-of-range condition. -/
def Memory.get (size : Config.MemSize) (m : Memory) (raw : Nat) : Option Word :=
  if raw < size.words then some (m.readWord (maskRaw raw)) else none

/-- The memory component's `set`, checked the same way (20_memory.md R34). -/
def Memory.set (size : Config.MemSize) (m : Memory) (raw : Nat) (w : Word) : Option Memory :=
  if raw < size.words then some (m.writeWord (maskRaw raw) w) else none

/-! ### Registers: one writer each -/

/-- `trunc_12` of a word: the mask on every assignment to `PC` and `MAR` (10_state.md R12, R13). -/
def trunc12 (v : Word) : Addr := v.setWidth 12

/-- `inc12(a) = (a + 1) mod 4096` (00_scope.md section 5.1). -/
def inc12 (a : Addr) : Addr := a + 1#12

def State.setAc (s : State) (v : Word) : State := { s with ac := v }
def State.setIr (s : State) (v : Word) : State := { s with ir := v }
def State.setPc (s : State) (v : Addr) : State := { s with pc := v }
def State.setMar (s : State) (v : Addr) : State := { s with mar := v }
def State.setMbr (s : State) (v : Word) : State := { s with mbr := v }
def State.setInReg (s : State) (v : Word) : State := { s with inReg := v }
def State.setOutReg (s : State) (v : Word) : State := { s with outReg := v }
def State.setExecState (s : State) (v : ExecutionState) : State := { s with execState := v }
def State.setMem (s : State) (m : Memory) : State := { s with mem := m }
def State.setInp (s : State) (ws : List Word) : State := { s with inp := ws }
def State.setOut (s : State) (ws : List Word) : State := { s with out := ws }

/-- Assigning a 16-bit value to `PC` wraps it into the address space (10_state.md R12). -/
def State.assignPc (s : State) (v : Word) : State := s.setPc (trunc12 v)

/-- Assigning a 16-bit value to `MAR` wraps it into the address space (10_state.md R13). -/
def State.assignMar (s : State) (v : Word) : State := s.setMar (trunc12 v)

/-- `M[a]`, the word at a 12-bit address (00_scope.md section 5.2). -/
def State.word (s : State) (a : Addr) : Word := s.mem.readWord a.toNat

/-- Whether a 12-bit address has a word behind it (20_memory.md R32, R33). -/
abbrev State.backed (s : State) (a : Addr) : Prop := a.toNat < s.memSize.words

/-! ### Sequencing and faults -/

/-- Raising a condition: the cycle ends at once with the state the earlier micro-operations made, nothing rolled back
and nothing further done; control leaves the machine (60_exceptions.md R148, R149). The machine has no trap entry, and
no return from one (R151). -/
def raise (mk : State → Fault) (left : State) : Outcome := .fault (mk left)

/-- Go on from a next state; a fault or a refusal ends the cycle (00_scope.md section 5.3). -/
def andThen (o : Outcome) (f : State → Outcome) : Outcome :=
  match o with
  | .next s => f s
  | .fault r => .fault r
  | .refused r => .refused r

/-- The next state of an outcome, if it has one. -/
def nextState (o : Outcome) : Option State :=
  match o with
  | .next s => some s
  | .fault _ => none
  | .refused _ => none

/-- The fault of an outcome, if it is one. -/
def faultOf (o : Outcome) : Option Fault :=
  match o with
  | .next _ => none
  | .fault r => some r
  | .refused _ => none

/-! ### Engine accesses, always at `MAR` -/

/-- `MemRead(MAR, 16)` handed to `k`, or `AddressOutOfRange(MAR)` (20_memory.md R35). -/
def memReadMar (s : State) (k : Word → Outcome) : Outcome :=
  match Memory.get s.memSize s.mem s.mar.toNat with
  | some v => k v
  | none => raise (.addressOutOfRange s.mar.toNat) s

/-- `MemWrite(MAR, 16, v)`, or `AddressOutOfRange(MAR)` with memory unchanged (20_memory.md R36). -/
def memWriteMar (s : State) (v : Word) : Outcome :=
  match Memory.set s.memSize s.mem s.mar.toNat v with
  | some m => .next (s.setMem m)
  | none => raise (.addressOutOfRange s.mar.toNat) s

/-! ### Fetch and Decode -/

/-- Fetch: `MAR <- PC; IR <- MemRead(MAR, 16); PC <- inc12(PC)` (40_fde_cycle.md R81). -/
def fetch (s : State) : Outcome :=
  memReadMar (s.setMar s.pc) fun w =>
    .next (((s.setMar s.pc).setIr w).setPc (inc12 (s.setMar s.pc).pc))

/-- Decode: `MAR <- addr(IR)`, for every word (40_fde_cycle.md R82). -/
def decodeStage (s : State) : State := s.assignMar s.ir

/-- The state with a word placed where the next cycle fetches, ready to run (log 7): the word at `PC`, `STATE` at
`Executing` because a cycle starts only then (40_fde_cycle.md R88). An unbacked `PC` has no place for a word. -/
def placeAtPc (s : State) (w : Word) : State :=
  match Memory.set s.memSize s.mem s.pc.toNat w with
  | some m => (s.setMem m).setExecState .executing
  | none => s.setExecState .executing

end Sys2Proof.Machine
end

