-- ==== Sys2Proof/Machine/Flags.lean ====
section
/-! DEFINITION. The machine has no flags (10_state.md R19). What stands here is what other machines would put in flags:
the signed reading of `AC` that SKIPCOND tests, and the two wraparound operations. -/

namespace Sys2Proof.Machine

/-- `add16(a, b) = (a + b) mod 65536` (42_arithmetic.md R110, R112). -/
def add16 (a b : Word) : Word := a + b

/-- `sub16(a, b) = (a - b) mod 65536` (42_arithmetic.md R111, R112). -/
def sub16 (a b : Word) : Word := a - b

/-- `AC < 0` in two's complement: bit 15 is one (42_arithmetic.md R113). -/
def isNegative (v : Word) : Bool := v.getLsbD 15

/-- `AC = 0` (42_arithmetic.md R113). -/
def isZero (v : Word) : Bool := v == 0x0000#16

/-- `AC > 0` in two's complement: bit 15 is zero and the word is not zero (42_arithmetic.md R113). -/
def isPositive (v : Word) : Bool := !isNegative v && !isZero v

/-- Whether SKIPCOND skips (44_control.md R131); the reserved condition never does (30_encoding.md R59). Log 16. -/
def skips (c : SkipCond) (ac : Word) : Bool :=
  match c with
  | .negative => isNegative ac
  | .zero => isZero ac
  | .positive => isPositive ac
  | .reserved => false

end Sys2Proof.Machine
end

