-- ==== Sys2Proof/Machine/Operands.lean ====
section
/-! DEFINITION. The one addressing mode: absolute direct (41_load_store.md R102). -/

namespace Sys2Proof.Machine

/-- The effective address of the address field: the field itself, no base, index or indirection (41_load_store.md R102;
30_encoding.md R54). -/
def effectiveAddress (x : Addr) : Addr := x

/-- The memory operand of LOAD, ADD and SUBT: `MAR <- X; MBR <- MemRead(MAR, 16)` (41_load_store.md R100). -/
def readOperand (x : Addr) (s : State) : Outcome :=
  memReadMar (s.setMar (effectiveAddress x)) fun v => .next ((s.setMar (effectiveAddress x)).setMbr v)

/-- The memory destination of STORE: `MAR <- X; MBR <- AC; MemWrite(MAR, 16, MBR)` (41_load_store.md R101). -/
def writeOperand (x : Addr) (s : State) : Outcome :=
  memWriteMar ((s.setMar (effectiveAddress x)).setMbr s.ac) ((s.setMar (effectiveAddress x)).setMbr s.ac).mbr

end Sys2Proof.Machine
end

