-- ==== Sys2Proof/Machine/Arithmetic.lean ====
section
/-! DEFINITION. ADD and SUBT (42_arithmetic.md). -/

namespace Sys2Proof.Machine

/-- ADD X (42_arithmetic.md R110). -/
def execAdd (x : Addr) (s : State) : Outcome :=
  andThen (readOperand x s) fun t => .next (t.setAc (add16 t.ac t.mbr))

/-- SUBT X: `AC` minus memory, never memory minus `AC` (42_arithmetic.md R111). -/
def execSubt (x : Addr) (s : State) : Outcome :=
  andThen (readOperand x s) fun t => .next (t.setAc (sub16 t.ac t.mbr))

end Sys2Proof.Machine
end

