-- ==== Sys2Proof/Machine/Control.lean ====
section
/-! DEFINITION. HALT, SKIPCOND and JUMP (44_control.md). -/

namespace Sys2Proof.Machine

/-- HALT (44_control.md R130). -/
def execHalt (_ignored : Addr) (s : State) : Outcome := .next (s.setExecState .halted)

/-- SKIPCOND (44_control.md R131): a second increment of `PC` when the condition holds. -/
def execSkipcond (c : SkipCond) (_ignored : BitVec 10) (s : State) : Outcome :=
  .next (if skips c s.ac then s.setPc (inc12 s.pc) else s)

/-- JUMP X: the target is not checked (44_control.md R132). -/
def execJump (x : Addr) (s : State) : Outcome := .next (s.setPc (effectiveAddress x))

end Sys2Proof.Machine
end

