-- ==== Sys2Proof/Machine/DataTransfer.lean ====
section
/-! DEFINITION. LOAD and STORE (41_load_store.md). -/

namespace Sys2Proof.Machine

/-- LOAD X (41_load_store.md R100). -/
def execLoad (x : Addr) (s : State) : Outcome :=
  andThen (readOperand x s) fun t => .next (t.setAc t.mbr)

/-- STORE X (41_load_store.md R101). -/
def execStore (x : Addr) (s : State) : Outcome := writeOperand x s

end Sys2Proof.Machine
end

