-- ==== Sys2Proof/Machine/InputOutput.lean ====
section
/-! DEFINITION. INPUT and OUTPUT and the I/O boundary as the engine sees it (43_io.md R122 to R126). -/

namespace Sys2Proof.Machine

/-- `HostInput()` (43_io.md R124): the next word of `IN` and the state that has consumed it, or none when the host has
supplied no further word. -/
def hostInput (s : State) : Option (Word × State) :=
  match s.inp with
  | [] => none
  | w :: rest => some (w, s.setInp rest)

/-- `HostOutput(v)`: the host takes the word; `OUT` records it (43_io.md R121, R124). -/
def hostOutput (v : Word) (s : State) : State := s.setOut (s.out ++ [v])

/-- INPUT (43_io.md R120): a fresh word through `InREG` into `AC`. With no word the handler waits and nothing changes
(R123); the hold of the whole cycle is `holds` in Execute.lean. Log 4. -/
def execInput (_ignored : Addr) (s : State) : Outcome :=
  match hostInput s with
  | some (w, t) => .next ((t.setInReg w).setAc (t.setInReg w).inReg)
  | none => .next s

/-- OUTPUT (43_io.md R121): one event and one word of `OUT` per execution, whatever `OutREG` held (R126). Log 18. -/
def execOutput (_ignored : Addr) (s : State) : Outcome :=
  .next (hostOutput (s.setOutReg s.ac).outReg (s.setOutReg s.ac))

end Sys2Proof.Machine
end

