-- ==== Sys2Proof/Machine/Dispatch.lean ====
section
/-! DEFINITION. The handler of each instruction, run after Fetch and Decode (40_fde_cycle.md R83). -/

namespace Sys2Proof.Machine

/-- The handler's effect on the state Fetch and Decode left. -/
def exec (i : Instr) (s : State) : Host.Outcome State Fault Refusal :=
  match i with
  | .load x => Sys2Proof.Machine.execLoad x s
  | .store x => Sys2Proof.Machine.execStore x s
  | .add x => Sys2Proof.Machine.execAdd x s
  | .subt x => Sys2Proof.Machine.execSubt x s
  | .input g => Sys2Proof.Machine.execInput g s
  | .output g => Sys2Proof.Machine.execOutput g s
  | .halt g => Sys2Proof.Machine.execHalt g s
  | .skipcond c g => Sys2Proof.Machine.execSkipcond c g s
  | .jump x => Sys2Proof.Machine.execJump x s

end Sys2Proof.Machine
end

