-- ==== Sys2Proof/Machine/Execute.lean ====
section
/-! DEFINITION. Execute: the look-up in the opcode table, the fault of an absent handler, and the hold of INPUT. -/

namespace Sys2Proof.Machine

/-- `EXT`, the handlers a host registers for opcodes the default table leaves free, each an arbitrary function on the
machine (00_scope.md R6; 40_fde_cycle.md R86). Configuration, not state (10_state.md R20). Log 9. -/
abbrev Extension := Config.OpcodeTable (State → Outcome)

/-- Registering an extension handler: an opcode with a default handler is refused like any other that has one
(40_fde_cycle.md R87). -/
def registerExtension (ext : Extension) (op : Opcode) (h : State → Outcome) : Except Config.ConfigError Extension :=
  match Config.defaultTable.lookup op with
  | some _ => .error (.duplicateOpcode op)
  | none => ext.register op h

/-- Whether the cycle holds: the instruction is INPUT and the host has no word to give (43_io.md R123). -/
def holds (i : Instr) (s : State) : Bool :=
  match i with
  | .load _ => false
  | .store _ => false
  | .add _ => false
  | .subt _ => false
  | .input _ => s.inp.isEmpty
  | .output _ => false
  | .halt _ => false
  | .skipcond _ _ => false
  | .jump _ => false

/-- Execute (40_fde_cycle.md R83) in `s`, the state after Decode. A held cycle has made no state change at all, so it
answers `before`, the state before its Fetch (43_io.md R123; 90_conflicts.md C9). Log 4. -/
def executeWith (ext : Extension) (before s : State) : Outcome :=
  match decodeWord s.ir with
  | .ok i => if holds i s then .next before else exec i s
  | .error _ =>
    match ext.lookup (opcode s.ir) with
    | some h => h s
    | none => raise (.invalidInstruction (opcode s.ir)) s

/-- One whole cycle: Fetch, Decode, Execute (40_fde_cycle.md R80, R84). -/
def cycleWith (ext : Extension) (s : State) : Outcome :=
  andThen (fetch s) fun t => executeWith ext s (decodeStage t)

/-- Execute with the default table: `EXT` is empty (92_eei_decisions.md D9). -/
def execute (before s : State) : Outcome := executeWith [] before s

/-- One whole cycle with the default table. -/
def cycle (s : State) : Outcome := cycleWith [] s

end Sys2Proof.Machine
end

