-- ==== Sys2Proof/Machine/Step.lean ====
section
/-! DEFINITION. The step: one cycle while `STATE = Executing`. -/

namespace Sys2Proof.Machine

/-- A cycle is started only when `STATE = Executing`; the call has no meaning otherwise (40_fde_cycle.md R88). Log 5. -/
def step (s : State) : Host.Outcome State Fault Refusal :=
  match s.execState with
  | .executing => cycle s
  | .halted => .refused .notExecuting

/-- The state with a table row's instruction placed where the next step fetches. It stands for the host's load of a
program (log 7). -/
def State.withFetchWord (s : State) (nbits w : Nat) : State := placeAtPc s (tableWord nbits w)

end Sys2Proof.Machine
end

