-- ==== Sys2Proof/Machine/HostInterface.lean ====
section
/-! DEFINITION. What the host can do to the machine besides a step (70_reset_and_hazards.md R178): load a program, supply
an input word, read and write memory by raw address, and run the driving loop. -/

namespace Sys2Proof.Machine

/-- The errors the host's calls report (60_exceptions.md R140), and the one call this spec refuses. -/
inductive HostError where
  /-- `ProgramTooLarge(n)`, `n` in words (60_exceptions.md R143). -/
  | programTooLarge (n : Nat)
  /-- An image with an odd number of bytes: refused (70_reset_and_hazards.md R171; 92_eei_decisions.md D16). Log 14. -/
  | oddImage (bytes : Nat)
  /-- `AddressOutOfRange(a)` of the host's own `get` or `set` (20_memory.md R47). -/
  | addressOutOfRange (raw : Nat)
  deriving DecidableEq, Repr

/-- What a load leaves to the environment: the input words at hand when the run begins (00_scope.md R7; the run draws
further ones from its `InputSequence`), and the values of `InREG` and
`OutREG`, which load does not set and the spec leaves unspecified (10_state.md R15, R16). Log 2, log 19. -/
structure Launch where
  inputs : List Word
  inReg : Word
  outReg : Word
  deriving DecidableEq, Repr

/-- The launch state of an accepted image (70_reset_and_hazards.md R172 to R175). -/
def launchState (size : Config.MemSize) (image : List Byte) (l : Launch) : State where
  ac := 0x0000#16
  ir := 0x0000#16
  pc := 0x000#12
  mar := 0x000#12
  mbr := 0x0000#16
  inReg := l.inReg
  outReg := l.outReg
  execState := .executing
  mem := Memory.ofBytes 0 image
  inp := l.inputs
  out := []
  memSize := size

/-- `load(program_bytes)`, the machine's reset (70_reset_and_hazards.md R170): the size check first, then memory,
registers and state flag, whatever the state was. A rejected load yields no launch state (R171). -/
def State.load (image : List Byte) (l : Launch) (s : State) : Except HostError State :=
  if 2 * s.memSize.words < image.length then .error (.programTooLarge ((image.length + 1) / 2))
  else if image.length % 2 = 1 then .error (.oddImage image.length)
  else .ok (launchState s.memSize image l)

/-- The bytes of an image of words, each high byte first (20_memory.md R37). -/
def imageOfWords : List Word → List Byte
  | [] => []
  | w :: ws => highByte w :: lowByte w :: imageOfWords ws

/-- The host supplies one more input word, which lifts a hold (43_io.md R123). -/
def State.supplyInput (w : Word) (s : State) : State := s.setInp (s.inp ++ [w])

/-- The host's `get(address)`, with a raw address of any size (20_memory.md R47). -/
def State.hostGet (raw : Nat) (s : State) : Except HostError Word :=
  match Memory.get s.memSize s.mem raw with
  | some v => .ok v
  | none => .error (.addressOutOfRange raw)

/-- The host's `set(address, word)` (20_memory.md R47). No step calls it, and the host does not call it during a run
(92_eei_decisions.md D12). Log 12. -/
def State.hostSet (raw : Nat) (w : Word) (s : State) : Except HostError State :=
  match Memory.set s.memSize s.mem raw w with
  | some m => .ok (s.setMem m)
  | none => .error (.addressOutOfRange raw)

/-! ### Runs -/

/-- The host's input words as a run's parameter `IN` (00_scope.md R7): "a finite or infinite sequence of 16-bit words
chosen by the host, under no law". No part of the state. Log 3. -/
inductive InputSequence where
  | finite (words : List Word)
  | infinite (word : Nat → Word)

/-- The word at a position of `IN`, none past the end of a finite one. -/
def InputSequence.wordAt : InputSequence → Nat → Option Word
  | .finite words, k => words[k]?
  | .infinite word, k => some (word k)

/-- The words of `IN` from one position up to another. -/
def InputSequence.between (input : InputSequence) (k j : Nat) : List Word :=
  (List.range' k (j - k)).filterMap input.wordAt

/-- A run under way: the machine and the position in `IN` (70_reset_and_hazards.md R175). -/
structure Run where
  state : State
  drawn : Nat
  deriving DecidableEq, Repr

/-- A run counted from a state, which load leaves with "the position in `IN` at its start" (70_reset_and_hazards.md R175). -/
def Run.start (s : State) : Run := { state := s, drawn := 0 }

/-- Whether the next cycle is an INPUT that asks the host for a word (43_io.md R120, R123): it holds in this state. -/
def State.awaitsInput (s : State) : Bool :=
  decide (s.execState = .executing ∧ s.backed s.pc) &&
    match decodeWord (s.word s.pc) with
    | .ok i => holds i s
    | .error _ => false

/-- The host's side of `HostInput()`, "a draw from `IN`" (70_reset_and_hazards.md R178): a word is supplied when an INPUT
asks for one and `IN` has one, and at no other time. Log 3. -/
def Run.fed (input : InputSequence) (r : Run) : Run :=
  if r.state.awaitsInput then
    match input.wordAt r.drawn with
    | some w => { state := r.state.supplyInput w, drawn := r.drawn + 1 }
    | none => r
  else r

/-- One step of a run on `IN`: the draw, if there is one, and the machine's step. -/
def stepOn (input : InputSequence) (r : Run) : Host.Outcome Run Fault Refusal :=
  match step (r.fed input).state with
  | .next t => .next { state := t, drawn := (r.fed input).drawn }
  | .fault q => .fault q
  | .refused q => .refused q

/-- How far a run has come (40_fde_cycle.md R90): its normal end, a fault, or still going. -/
inductive RunResult where
  | ended (r : Run)
  | faulted (q : Fault)
  | running (r : Run)
  deriving DecidableEq, Repr

/-- The host's driving loop on `IN` for at most a number of calls of the step: it "repeats Fetch→Decode→Execute while
state == Executing" (40_fde_cycle.md R88). -/
def drive (input : InputSequence) : Nat → Run → RunResult
  | 0, r =>
    match r.state.execState with
    | .halted => .ended r
    | .executing => .running r
  | n + 1, r =>
    match r.state.execState with
    | .halted => .ended r
    | .executing =>
      match stepOn input r with
      | .next t => drive input n t
      | .fault q => .faulted q
      | .refused _ => .running r

end Sys2Proof.Machine
end

