-- ==== Sys2Proof/Machine/Assembler.lean ====
section
/-! DEFINITION. The assembler's grammar and the word each line produces (30_encoding.md R62 to R70), and the listing form
(R71). Surrounding software that the scope file keeps as syntax only (00_scope.md R2, R3): no step uses it. -/

namespace Sys2Proof.Machine.Assembler

/-- Source text, a line or a token of it. -/
abbrev Text := List Char

/-- The assembler's errors (30_encoding.md R69), each with the offending token or name, and the texts the spec leaves
open, which are refused (92_eei_decisions.md D21; 93_implementation_defined.md U18). Log 15. -/
inductive AsmError where
  | unrecognized (token : Text)
  | malformedDeclaration (token : Text)
  | undefinedSymbol (name : Text)
  | leftOpen (token : Text)
  deriving DecidableEq, Repr

/-! ### Tokens and numerals -/

/-- The pieces of a text between separators. -/
def splitBy (sep : Char → Bool) : Text → List Text
  | [] => [[]]
  | c :: cs =>
    match splitBy sep cs with
    | [] => [[c]]
    | p :: ps => if sep c then [] :: p :: ps else (c :: p) :: ps

/-- White space inside a line: the space, the tab and the carriage return, and no other character. The spec says only
"whitespace" (30_encoding.md R62): DESIGN CHOICE, safe, log 23. -/
def isBlank (c : Char) : Bool := c == ' ' || c == '\t' || c == '\r'

/-- "Tokens are split on whitespace" (30_encoding.md R62). -/
def tokens (line : Text) : List Text := (splitBy isBlank line).filter fun t => !t.isEmpty

/-- The lines of a source text, each as its tokens (30_encoding.md R62). A line ends at a line feed and at nothing else,
which the spec does not say: DESIGN CHOICE, safe, log 23. -/
def sourceLines (source : Text) : List (List Text) := (splitBy (· == '\n') source).map tokens

/-- Mnemonics are case-insensitive (30_encoding.md R62). -/
def upper (t : Text) : Text := t.map Char.toUpper

/-- The value of a decimal digit. -/
def decDigit (c : Char) : Option Nat :=
  if 48 ≤ c.toNat ∧ c.toNat ≤ 57 then some (c.toNat - 48) else none

/-- The value of a hexadecimal digit, its letter in either case, which the spec does not say: DESIGN CHOICE, safe, log 23. -/
def hexDigit (c : Char) : Option Nat :=
  if 48 ≤ c.toNat ∧ c.toNat ≤ 57 then some (c.toNat - 48)
  else if 65 ≤ c.toNat ∧ c.toNat ≤ 70 then some (c.toNat - 55)
  else if 97 ≤ c.toNat ∧ c.toNat ≤ 102 then some (c.toNat - 87)
  else none

/-- The number a run of digits writes after those already read, if each is a digit. -/
def readDigits (base : Nat) (digit : Char → Option Nat) : Nat → Text → Option Nat
  | acc, [] => some acc
  | acc, c :: cs =>
    match digit c with
    | some d => readDigits base digit (acc * base + d) cs
    | none => none

/-- A non-empty hexadecimal numeral without prefix (30_encoding.md R64). -/
def readHex (t : Text) : Option Nat := if t.isEmpty then none else readDigits 16 hexDigit 0 t

/-- A non-empty decimal numeral. -/
def readDec (t : Text) : Option Nat := if t.isEmpty then none else readDigits 10 decDigit 0 t

/-- A signed decimal numeral (30_encoding.md R67). Only a minus sign is read: a plus sign, which the spec does not mention,
makes a malformed declaration. DESIGN CHOICE, safe, log 15. -/
def readSigned : Text → Option Int
  | '-' :: ds => (readDec ds).map fun n => -(n : Int)
  | ds => (readDec ds).map fun n => (n : Int)

/-! ### Mnemonics -/

/-- The letters of a mnemonic (30_encoding.md R63, R65). -/
def mnemonicText : Config.Handler → Text
  | .load => ['L', 'O', 'A', 'D']
  | .store => ['S', 'T', 'O', 'R', 'E']
  | .add => ['A', 'D', 'D']
  | .subt => ['S', 'U', 'B', 'T']
  | .input => ['I', 'N', 'P', 'U', 'T']
  | .output => ['O', 'U', 'T', 'P', 'U', 'T']
  | .halt => ['H', 'A', 'L', 'T']
  | .skipcond => ['S', 'K', 'I', 'P', 'C', 'O', 'N', 'D']
  | .jump => ['J', 'U', 'M', 'P']

/-- Whether the mnemonic takes an operand (30_encoding.md R63) or none (R65). -/
def takesOperand : Config.Handler → Bool
  | .load => true
  | .store => true
  | .add => true
  | .subt => true
  | .input => false
  | .output => false
  | .halt => false
  | .skipcond => true
  | .jump => true

/-- The handler a token names, in any case of letters. -/
def handlerNamed (t : Text) : Option Config.Handler :=
  (Config.defaultTable.map Prod.snd).find? fun h => mnemonicText h == upper t

/-- The opcode a mnemonic assembles to (30_encoding.md R63). -/
def opcodeOf (h : Config.Handler) : Opcode := (instrOf h 0#12).opcode

/-! ### The first pass: slots, cursor and symbols -/

/-- What a filled image slot holds before the resolve pass; a slot not listed is Empty (30_encoding.md R64, R68). -/
inductive Slot where
  | literal (w : Word)
  | variableRef (op : Opcode) (name : Text)
  deriving DecidableEq, Repr

/-- The number of slots of the image, and so of words of the output (30_encoding.md R62, R68), kept when `MEM_WORDS` is
4096, for which 70_reset_and_hazards.md R172 would have 4096 words. DESIGN CHOICE, safe, log 25. -/
def slotCount : Nat := 4095

/-- The first pass under way: the write cursor, the filled slots and the names declared so far (30_encoding.md R62). -/
structure Pass where
  cursor : Nat
  slots : List (Nat × Slot)
  symbols : List (Text × Addr)
  deriving DecidableEq, Repr

/-- "The cursor starts at 0", every slot Empty (30_encoding.md R62). -/
def Pass.start : Pass := { cursor := 0, slots := [], symbols := [] }

/-- Emission at the cursor, which then advances by one (30_encoding.md R62). Past the last slot the spec is silent
(91_not_in_source.md N15). Log 15. It is silent too on a slot that an earlier line filled (`ORG` moved the cursor back): the
new slot replaces it, so an undeclared name the old one referred to is never reported. DESIGN CHOICE, safe, log 24. -/
def emit (token : Text) (slot : Slot) (p : Pass) : Except AsmError Pass :=
  if p.cursor < slotCount then
    .ok { p with cursor := p.cursor + 1, slots := (p.cursor, slot) :: p.slots.filter fun e => e.1 != p.cursor }
  else .error (.leftOpen token)

/-- The slot of a one-operand line: a literal if the operand starts with a digit, else a reference (30_encoding.md R64).
A numeral with a wrong digit is left open by the spec (91_not_in_source.md N18). Log 15. -/
def operandSlot (op : Opcode) (t : Text) : Except AsmError Slot :=
  match t with
  | [] => .error (.leftOpen t)
  | c :: _ =>
    if (decDigit c).isSome then
      match readHex t with
      | some n => .ok (.literal (codec op (BitVec.ofNat 12 n)))
      | none => .error (.leftOpen t)
    else .ok (.variableRef op t)

/-- The origin directive moves the cursor and nothing else (30_encoding.md R66). An address beyond the slots, or none, is
left open by the spec (91_not_in_source.md N15, N18). Log 15. -/
def origin (t : Text) (p : Pass) : Except AsmError Pass :=
  match readHex t with
  | some n => if n < slotCount then .ok { p with cursor := n } else .error (.leftOpen t)
  | none => .error (.leftOpen t)

/-- A token without its final comma, if it has one. -/
def dropComma : Text → Option Text
  | [] => none
  | [c] => if c == ',' then some [] else none
  | c :: cs => (dropComma cs).map fun t => c :: t

/-- The word a declaration emits: the 16-bit pattern of the value (30_encoding.md R67). Values the word cannot hold are
left open by the spec (91_not_in_source.md N13), as are keywords not in upper case (N14). Log 15. -/
def declaredWord (kind value : Text) : Except AsmError Word :=
  if kind = ['D', 'E', 'C'] then
    match readSigned value with
    | some v => if -32768 ≤ v ∧ v ≤ 32767 then .ok (BitVec.ofInt 16 v) else .error (.leftOpen value)
    | none => .error (.malformedDeclaration value)
  else if kind = ['H', 'E', 'X'] then
    match readHex value with
    | some n => if n < 65536 then .ok (BitVec.ofNat 16 n) else .error (.leftOpen value)
    | none => .error (.malformedDeclaration value)
  else if upper kind = ['D', 'E', 'C'] ∨ upper kind = ['H', 'E', 'X'] then .error (.leftOpen kind)
  else .error (.malformedDeclaration kind)

/-- A declaration records the name at the cursor and emits its word there (30_encoding.md R67). A name declared already,
also in other letters' case, is left open by the spec (91_not_in_source.md N14, N16). Log 15. -/
def declare (name kind value : Text) (p : Pass) : Except AsmError Pass :=
  if p.symbols.any fun e => upper e.1 == upper name then .error (.leftOpen name)
  else
    match declaredWord kind value with
    | .ok w => emit name (.literal w) { p with symbols := (name, BitVec.ofNat 12 p.cursor) :: p.symbols }
    | .error e => .error e

/-- A token that is a comma alone or holds one before its end: the commas are not spaced as in `X, DEC, 0`, and the spec
does not say how such a text is split (91_not_in_source.md N12). -/
def unspacedComma (t : Text) : Bool := t == [','] || t.dropLast.contains ','

/-- A line that is no instruction and no directive: a declaration, or an error naming its offending token (30_encoding.md
R62, R67, R69). The spec leaves open (91_not_in_source.md N12) whether a space must follow each comma (`X, DEC,0`,
`X,DEC, 0`, `X , DEC, 0`): such a line is refused as `leftOpen`, DESIGN CHOICE, safe, log 15. It also leaves open how a
declaration is told from an unknown mnemonic (here: the first token ends in a comma) and which token a malformed
declaration's error names, and neither it nor the grammar gives a name's syntax: any token that ends in its one comma
declares what stands before the comma, a text that starts with a digit (`5, DEC, 1`, which no operand can refer to, R64) or
is a keyword among them. DESIGN CHOICE, safe, log 23. -/
def declarationLine (first : Text) (rest : List Text) (p : Pass) : Except AsmError Pass :=
  match (first :: rest).find? unspacedComma with
  | some t => .error (.leftOpen t)
  | none =>
    match dropComma first with
    | none => .error (.unrecognized first)
    | some name =>
      match rest with
      | [k, value] =>
        match dropComma k with
        | some kind => declare name kind value p
        | none => .error (.malformedDeclaration k)
      | _ => .error (.malformedDeclaration first)

/-- A one-operand instruction line (30_encoding.md R63). Text after a whole instruction is left
open by the spec (91_not_in_source.md N17). Log 15. -/
def operandLine (h : Config.Handler) (first : Text) (rest : List Text) (p : Pass) : Except AsmError Pass :=
  match rest with
  | [] => .error (.unrecognized first)
  | [x] =>
    match operandSlot (opcodeOf h) x with
    | .ok slot => emit first slot p
    | .error e => .error e
  | _ :: _ :: _ => .error (.leftOpen first)

/-- A zero-operand instruction line, the opcode with a zero field (30_encoding.md R65). -/
def bareLine (h : Config.Handler) (first : Text) (rest : List Text) (p : Pass) : Except AsmError Pass :=
  match rest with
  | [] => emit first (.literal (codec (opcodeOf h) 0#12)) p
  | _ :: _ => .error (.leftOpen first)

/-- An instruction line, by whether its mnemonic takes an operand. -/
def instructionLine (h : Config.Handler) (first : Text) (rest : List Text) (p : Pass) : Except AsmError Pass :=
  if takesOperand h then operandLine h first rest p else bareLine h first rest p

/-- One line, given as its tokens (30_encoding.md R62). White space before a comment's slash, text after an origin's address
and `ORG` not in upper case are left open by the spec (91_not_in_source.md N14, N17). Log 15. -/
def assembleLine (line : List Text) (p : Pass) : Except AsmError Pass :=
  match line with
  | [] => .ok p
  | first :: rest =>
    if first.head? = some '/' then .ok p
    else
      match handlerNamed first with
      | some h => instructionLine h first rest p
      | none =>
        if first = ['O', 'R', 'G'] then
          match rest with
          | [] => .error (.unrecognized first)
          | [a] => origin a p
          | _ => .error (.leftOpen first)
        else if upper first = ['O', 'R', 'G'] then .error (.leftOpen first)
        else declarationLine first rest p

/-- The first pass over all lines; the first error ends it (30_encoding.md R69). -/
def assembleLines : List (List Text) → Pass → Except AsmError Pass
  | [], p => .ok p
  | l :: ls, p =>
    match assembleLine l p with
    | .ok q => assembleLines ls q
    | .error e => .error e

/-! ### The resolve pass -/

/-- The address a name stands for, looked up in the completed table (30_encoding.md R68). -/
def symbolAddress (symbols : List (Text × Addr)) (name : Text) : Except AsmError Addr :=
  match symbols.find? fun e => e.1 == name with
  | some e => .ok e.2
  | none =>
    if symbols.any fun e => upper e.1 == upper name then .error (.leftOpen name) else .error (.undefinedSymbol name)

/-- The word a slot encodes to (30_encoding.md R68). -/
def slotWord (symbols : List (Text × Addr)) : Slot → Except AsmError Word
  | .literal w => .ok w
  | .variableRef op name => (symbolAddress symbols name).map fun a => codec op a

/-- The words of all filled slots; one unresolved name and there is no image (30_encoding.md R69). Where several names
are undeclared the spec does not say which is reported: here it is the one of the slot filled last, as `Pass.slots` has
the newest slot first. DESIGN CHOICE, safe, log 23. -/
def resolve (symbols : List (Text × Addr)) : List (Nat × Slot) → Except AsmError (List (Nat × Word))
  | [] => .ok []
  | (k, slot) :: rest =>
    match slotWord symbols slot with
    | .error e => .error e
    | .ok w =>
      match resolve symbols rest with
      | .ok ws => .ok ((k, w) :: ws)
      | .error e => .error e

/-- The assembled image by its filled slots. -/
abbrev Image := List (Nat × Word)

/-- The word at an image index; an Empty slot encodes to zero (30_encoding.md R68). -/
def Image.word : Image → Nat → Word
  | [], _ => 0x0000#16
  | (k, w) :: m, i => if k = i then w else Image.word m i

/-- The 4095-word array, the assembler's sole output (30_encoding.md R68). -/
def Image.words (m : Image) : List Word := (List.range slotCount).map fun i => Image.word m i

/-- The array as the bytes `load` takes (20_memory.md R37). -/
def Image.bytes (m : Image) : List Byte := imageOfWords (Image.words m)

/-- The assembler: lines, first pass, resolve pass (30_encoding.md R62 to R69). -/
def assemble (source : Text) : Except AsmError Image :=
  match assembleLines (sourceLines source) Pass.start with
  | .ok p => resolve p.symbols p.slots
  | .error e => .error e

/-! ### The listing form -/

/-- A hexadecimal digit, upper case. -/
def hexChar (d : BitVec 4) : Char :=
  if d.toNat < 10 then Char.ofNat (48 + d.toNat) else Char.ofNat (55 + d.toNat)

/-- An address in three hexadecimal digits. -/
def hexAddr (a : Addr) : Text :=
  [hexChar (a.extractLsb' 8 4), hexChar (a.extractLsb' 4 4), hexChar (a.extractLsb' 0 4)]

/-- A word in four hexadecimal digits. -/
def hexWord (w : Word) : Text := hexChar (opcode w) :: hexAddr (addr w)

/-- A machine word as this spec's listings show it (30_encoding.md R71). -/
def listing (a : Addr) (w : Word) : Text :=
  hexAddr a ++ [':', ' '] ++ hexWord w ++ [' ', ' '] ++
    match Config.defaultTable.lookup (opcode w) with
    | some h => if takesOperand h then mnemonicText h ++ [' '] ++ hexAddr (addr w) else mnemonicText h
    | none => ['.', 'W', 'O', 'R', 'D', ' '] ++ hexWord w

end Sys2Proof.Machine.Assembler
end

