-- ==== Sys2Proof/Safety.lean ====
section
/-! DEFINITION. What claims speak of: final states, the invariant, reachability, the word about to run, and what a
program cannot see. -/

namespace Sys2Proof.Machine

/-- The only final states (40_fde_cycle.md R90). -/
abbrev State.isFinal (s : State) : Prop := s.execState = .halted

/-- The invariant: memory is in canonical form and names no byte beyond the words that exist (20_memory.md R32). -/
abbrev State.Inv (s : State) : Prop := s.mem.wf ∧ Memory.within s.memSize.words s.mem

/-- How a run on `IN` goes: its start, and what each step answers (40_fde_cycle.md R90; 00_scope.md R7). -/
inductive Reaches (input : InputSequence) : Run → Run → Prop where
  | refl (r : Run) : Reaches input r r
  | step {r t u : Run} : Reaches input r t → stepOn input t = .next u → Reaches input r u

/-- The word the next cycle fetches, `M[PC]` (40_fde_cycle.md R81). -/
def State.nextWord (s : State) : Word := s.word s.pc

/-- The state Fetch and Decode leave when the fetch succeeds: what a handler runs in (40_fde_cycle.md R81, R82, R85). -/
def afterDecode (s : State) : State :=
  { s with ir := s.word s.pc, pc := inc12 s.pc, mar := addr (s.word s.pc) }

/-- The two registers no program can read blotted out (10_state.md R15, R16). -/
def State.hideIo (s : State) : State := { s with inReg := 0x0000#16, outReg := 0x0000#16 }

/-- The same blotting on a fault's report. -/
def Fault.hideIo : Fault → Fault
  | .invalidInstruction op s => .invalidInstruction op s.hideIo
  | .addressOutOfRange raw s => .addressOutOfRange raw s.hideIo

/-- Two outcomes that a program, and a host that does not look at `InREG` and `OutREG`, cannot tell apart. -/
def sameButIo : Outcome → Outcome → Prop
  | .next s, .next t => s.hideIo = t.hideIo
  | .fault r, .fault q => r.hideIo = q.hideIo
  | .refused r, .refused q => r = q
  | _, _ => False

end Sys2Proof.Machine
end

