-- ==== Sys2Proof/Certificates/Slice0/Obligations.lean ====
section
/-! DEFINITION. The statements for the provers, taken from the spec's numbered rules. Every statement is over all states
and all memory sizes unless it says otherwise. -/

open Sys2Proof Sys2Proof.Machine

/-! ### Encoding -/

/-- Decode and encode agree (30_encoding.md R51, R53, R56): every well-formed instruction is read back from its word, and
from its bytes whatever follows them. -/
def Obligations.EncodedInstructionDecodesBack : Prop :=
  ∀ i : Instr, i.wellFormed = true →
    decodeWord (encode i) = .ok i ∧ ∀ rest, decodeBytes (encodeBytes i ++ rest) = .ok (i, rest)

/-- The other direction: a word that decodes is the word of what it decodes to, so no two words are one instruction. -/
def Obligations.DecodedWordEncodesBack : Prop :=
  ∀ (w : Word) (i : Instr), decodeWord w = .ok i →
    encode i = w ∧ i.opcode = opcode w ∧ i.addressField = addr w

/-- The word codec as shifts and masks (30_encoding.md R51), total on 16-bit words. -/
def Obligations.CodecIsShiftAndMask : Prop :=
  (∀ w : Word, (opcode w).toNat = w.toNat >>> 12 ∧ (addr w).toNat = w.toNat &&& 0x0FFF) ∧
    ∀ (op : Opcode) (a : Addr), (codec op a).toNat = (op.toNat <<< 12) ||| (a.toNat &&& 0x0FFF)

/-- The words of V-C1 to V-C8, V-C10, V-C12, V-C13, V-C15 and V-C16 of 95_test_vectors.md, one each, decode as listed
there. -/
def Obligations.ListedWordsDecode : Prop :=
  decodeWord 0x1006#16 = .ok (.load 0x006#12) ∧ decodeWord 0x2FFE#16 = .ok (.store 0xFFE#12) ∧
  decodeWord 0x3000#16 = .ok (.add 0x000#12) ∧ decodeWord 0x4ABC#16 = .ok (.subt 0xABC#12) ∧
  decodeWord 0x5000#16 = .ok (.input 0x000#12) ∧
  decodeWord 0x5FFF#16 = .ok (.input 0xFFF#12) ∧ decodeWord 0x6123#16 = .ok (.output 0x123#12) ∧
  decodeWord 0x7ABC#16 = .ok (.halt 0xABC#12) ∧ decodeWord 0x87FF#16 = .ok (.skipcond .zero 0x3FF#10) ∧
  decodeWord 0x8C00#16 = .ok (.skipcond .reserved 0x000#10) ∧ decodeWord 0x9FFE#16 = .ok (.jump 0xFFE#12) ∧
  decodeWord 0x0FFF#16 = .error (.unregistered 0x0#4) ∧ decodeWord 0xA000#16 = .error (.unregistered 0xA#4)

/-- Exactly the words with opcode 0 or 10 to 15 are rejected, each by its opcode (30_encoding.md R56, R58). -/
def Obligations.UnregisteredOpcodesRejected : Prop :=
  ∀ w : Word,
    if (opcode w).toNat = 0 ∨ 10 ≤ (opcode w).toNat then decodeWord w = .error (.unregistered (opcode w))
    else ∃ i, decodeWord w = .ok i

/-- Dispatch reads only the opcode (30_encoding.md R55): words with one opcode are one mnemonic, and where the handler
ignores bits, words that agree on the others have one effect after Decode. -/
def Obligations.IgnoredBitsDoNotMatter : Prop :=
  ∀ (w v : Word) (i : Instr), decodeWord w = .ok i → opcode v = opcode w →
    ∃ j, decodeWord v = .ok j ∧ j.mnemonic = i.mnemonic ∧
      ((opcode w = 5#4 ∨ opcode w = 6#4 ∨ opcode w = 7#4 ∨
          opcode w = 8#4 ∧ v.extractLsb' 10 2 = w.extractLsb' 10 2) →
        ∀ s, exec j s = exec i s)

/-! ### What each instruction does -/

/-- LOAD (41_load_store.md R100) completes on every backed address, with exactly these three registers written, and faults
on an unbacked one. That the fault leaves `MAR` written and all else as it was is the spec's decision D22 (log 6). -/
def Obligations.LoadCopiesWordToAc : Prop :=
  ∀ (x : Addr) (s : State),
    (s.backed x → exec (.load x) s = .next { s with mar := x, mbr := s.word x, ac := s.word x }) ∧
    (¬s.backed x → exec (.load x) s = .fault (.addressOutOfRange x.toNat { s with mar := x }))

/-- STORE (41_load_store.md R101) completes on every backed address: `M[X]` reads as `AC`, every other word as before, and
`MAR`, `MBR` are the only registers written. -/
def Obligations.StoreCopiesAcToWord : Prop :=
  ∀ (x : Addr) (s : State), s.backed x →
    ∃ m : Memory, exec (.store x) s = .next { s with mar := x, mbr := s.ac, mem := m } ∧
      ∀ a : Nat, m.readWord a = if a = x.toNat then s.ac else s.mem.readWord a

/-- STORE on an unbacked address faults (41_load_store.md R101). That the fault leaves `MAR` and `MBR` written and all else
as it was is derived there, by the spec's decision D22 (60_exceptions.md R149; log 6). -/
def Obligations.StoreToUnbackedAddressFaults : Prop :=
  ∀ (x : Addr) (s : State), ¬s.backed x →
    exec (.store x) s = .fault (.addressOutOfRange x.toNat { s with mar := x, mbr := s.ac })

/-- ADD (42_arithmetic.md R110): the sum modulo 65536, or the fault. That the fault leaves `MAR` written and all else as it
was is derived there, by the spec's decision D22 (log 6). -/
def Obligations.AddWrapsModulo65536 : Prop :=
  ∀ (x : Addr) (s : State),
    (s.backed x → exec (.add x) s = .next
      { s with mar := x, mbr := s.word x, ac := BitVec.ofNat 16 ((s.ac.toNat + (s.word x).toNat) % 65536) }) ∧
    (¬s.backed x → exec (.add x) s = .fault (.addressOutOfRange x.toNat { s with mar := x }))

/-- SUBT (42_arithmetic.md R111): the residue of `AC` minus the memory word modulo 65536, or the fault. That the fault
leaves `MAR` written and all else as it was is derived there, by the spec's decision D22 (log 6). -/
def Obligations.SubtWrapsModulo65536 : Prop :=
  ∀ (x : Addr) (s : State),
    (s.backed x → exec (.subt x) s = .next
      { s with
        mar := x, mbr := s.word x,
        ac := BitVec.ofInt 16 (((s.ac.toNat : Int) - ((s.word x).toNat : Int)) % 65536) }) ∧
    (¬s.backed x → exec (.subt x) s = .fault (.addressOutOfRange x.toNat { s with mar := x }))

/-- INPUT (43_io.md R120) completes whenever the host has a word: one word is consumed into `InREG` and `AC`. That `InREG`
receives it is the spec's decision D5 (logs 3 and 13); the form with no word is `Obligations.HeldInputWaitsForWord`. -/
def Obligations.InputTakesOneWord : Prop :=
  ∀ (g : Addr) (s : State) (w : Word) (rest : List Word), s.inp = w :: rest →
    exec (.input g) s = .next { s with inReg := w, ac := w, inp := rest }

/-- OUTPUT (43_io.md R121) always completes, with one word added to `OUT`. That it is one word whatever `OutREG` held is
the spec's decision D6 (log 18). -/
def Obligations.OutputEmitsAc : Prop :=
  ∀ (g : Addr) (s : State), exec (.output g) s = .next { s with outReg := s.ac, out := s.out ++ [s.ac] }

/-- HALT (44_control.md R130) always completes and writes only the state flag. -/
def Obligations.HaltSetsHalted : Prop :=
  ∀ (g : Addr) (s : State), exec (.halt g) s = .next { s with execState := .halted }

/-- SKIPCOND (44_control.md R131) always completes. The skip is a second increment of `PC`, decided by `AC` read as a
signed number; condition `0b11` never skips (the spec's own decision D7 between the source's two words for it). -/
def Obligations.SkipcondSkipsBySignedAc : Prop :=
  ∀ (g : BitVec 10) (s : State),
    exec (.skipcond .negative g) s =
      .next { s with pc := if s.ac.toInt < 0 then BitVec.ofNat 12 ((s.pc.toNat + 1) % 4096) else s.pc } ∧
    exec (.skipcond .zero g) s =
      .next { s with pc := if s.ac.toInt = 0 then BitVec.ofNat 12 ((s.pc.toNat + 1) % 4096) else s.pc } ∧
    exec (.skipcond .positive g) s =
      .next { s with pc := if 0 < s.ac.toInt then BitVec.ofNat 12 ((s.pc.toNat + 1) % 4096) else s.pc } ∧
    exec (.skipcond .reserved g) s = .next s

/-- JUMP (44_control.md R132) always completes: every 12-bit value is a target, backed or not. -/
def Obligations.JumpSetsPc : Prop :=
  ∀ (x : Addr) (s : State), exec (.jump x) s = .next { s with pc := x }

/-! ### What each instruction leaves alone -/

/-- The frame of LOAD, ADD and SUBT: only `AC`, `MAR` and `MBR` may change, and no byte of memory does. -/
def Obligations.ReadingInstructionsFrame : Prop :=
  ∀ (i : Instr) (x : Addr) (s t : State), (i = .load x ∨ i = .add x ∨ i = .subt x) → exec i s = .next t →
    t.ir = s.ir ∧ t.pc = s.pc ∧ t.inReg = s.inReg ∧ t.outReg = s.outReg ∧ t.execState = s.execState ∧
      t.inp = s.inp ∧ t.out = s.out ∧ t.memSize = s.memSize ∧
      ∀ k : Nat, t.mem.readByte k = s.mem.readByte k

/-- The frame of STORE: only `MAR`, `MBR` and the two bytes of the word at the effective address may change. -/
def Obligations.StoreFrame : Prop :=
  ∀ (x : Addr) (s t : State), exec (.store x) s = .next t →
    t.ac = s.ac ∧ t.ir = s.ir ∧ t.pc = s.pc ∧ t.inReg = s.inReg ∧ t.outReg = s.outReg ∧
      t.execState = s.execState ∧ t.inp = s.inp ∧ t.out = s.out ∧ t.memSize = s.memSize ∧
      ∀ k : Nat, k ≠ 2 * (effectiveAddress x).toNat → k ≠ 2 * (effectiveAddress x).toNat + 1 →
        t.mem.readByte k = s.mem.readByte k

/-- The frames of INPUT (only `InREG`, `AC` and `IN` may change) and OUTPUT (only `OutREG` and `OUT` may change). -/
def Obligations.InputOutputFrame : Prop :=
  (∀ (g : Addr) (s t : State), exec (.input g) s = .next t →
    t.ir = s.ir ∧ t.pc = s.pc ∧ t.mar = s.mar ∧ t.mbr = s.mbr ∧ t.outReg = s.outReg ∧
      t.execState = s.execState ∧ t.out = s.out ∧ t.memSize = s.memSize ∧
      ∀ k : Nat, t.mem.readByte k = s.mem.readByte k) ∧
  ∀ (g : Addr) (s t : State), exec (.output g) s = .next t →
    t.ac = s.ac ∧ t.ir = s.ir ∧ t.pc = s.pc ∧ t.mar = s.mar ∧ t.mbr = s.mbr ∧ t.inReg = s.inReg ∧
      t.execState = s.execState ∧ t.inp = s.inp ∧ t.memSize = s.memSize ∧
      ∀ k : Nat, t.mem.readByte k = s.mem.readByte k

/-- The frames of HALT (only `STATE` may change), SKIPCOND and JUMP (only `PC` may change). -/
def Obligations.ControlFrame : Prop :=
  ∀ (i : Instr) (s t : State),
    ((∃ g, i = .halt g) ∨ (∃ c g, i = .skipcond c g) ∨ ∃ x, i = .jump x) → exec i s = .next t →
      t.ac = s.ac ∧ t.ir = s.ir ∧ t.mar = s.mar ∧ t.mbr = s.mbr ∧ t.inReg = s.inReg ∧ t.outReg = s.outReg ∧
        t.inp = s.inp ∧ t.out = s.out ∧ t.memSize = s.memSize ∧
        (∀ k : Nat, t.mem.readByte k = s.mem.readByte k) ∧
        ((∃ g, i = .halt g) → t.pc = s.pc) ∧ ((∀ g, i ≠ .halt g) → t.execState = s.execState)

/-! ### The step -/

/-- A step runs the decoded instruction (40_fde_cycle.md R80 to R83): `exec` in the state Fetch and Decode leave, or, where
the cycle holds, the unchanged state (the hold as a step that changes nothing is the model's choice, log 4). -/
def Obligations.StepRunsDecodedInstruction : Prop :=
  ∀ (s : State) (i : Instr), s.execState = .executing → s.backed s.pc →
    decodeWord (s.mem.readWord s.pc.toNat) = .ok i →
    step s =
      if holds i s then .next s
      else exec i { s with
        mar := addr (s.mem.readWord s.pc.toNat), ir := s.mem.readWord s.pc.toNat, pc := inc12 s.pc }

/-- The whole step as 40_fde_cycle.md R84 lists it, written again over numbers: the reference of
`Obligations.StepMeetsListing`. A held INPUT answers the unchanged state (log 4). -/
def Sys2Proof.Machine.listedStep (s : State) : Outcome :=
  if s.memSize.words ≤ s.pc.toNat then .fault (.addressOutOfRange s.pc.toNat { s with mar := s.pc })
  else
    let w : Word := s.mem.readWord s.pc.toNat
    let a : Addr := BitVec.ofNat 12 (w.toNat % 4096)
    let next : Addr := BitVec.ofNat 12 ((s.pc.toNat + 1) % 4096)
    let skip : Addr := BitVec.ofNat 12 ((s.pc.toNat + 2) % 4096)
    let d : State := { s with ir := w, pc := next, mar := a }
    let m : Word := s.mem.readWord a.toNat
    let noWord : Bool := decide (s.memSize.words ≤ a.toNat)
    match w.toNat / 4096 with
    | 1 => if noWord then .fault (.addressOutOfRange a.toNat d) else .next { d with mbr := m, ac := m }
    | 2 =>
      if noWord then .fault (.addressOutOfRange a.toNat { d with mbr := s.ac })
      else .next { d with mbr := s.ac, mem := s.mem.writeWord a.toNat s.ac }
    | 3 =>
      if noWord then .fault (.addressOutOfRange a.toNat d)
      else .next { d with mbr := m, ac := BitVec.ofNat 16 ((s.ac.toNat + m.toNat) % 65536) }
    | 4 =>
      if noWord then .fault (.addressOutOfRange a.toNat d)
      else .next { d with mbr := m, ac := BitVec.ofNat 16 ((s.ac.toNat + 65536 - m.toNat) % 65536) }
    | 5 =>
      match s.inp with
      | [] => .next s
      | v :: rest => .next { d with inReg := v, ac := v, inp := rest }
    | 6 => .next { d with outReg := s.ac, out := s.out ++ [s.ac] }
    | 7 => .next { d with execState := .halted }
    | 8 =>
      match w.toNat / 1024 % 4 with
      | 0 => .next { d with pc := if 32768 ≤ s.ac.toNat then skip else next }
      | 1 => .next { d with pc := if s.ac.toNat = 0 then skip else next }
      | 2 => .next { d with pc := if s.ac.toNat < 32768 ∧ s.ac.toNat ≠ 0 then skip else next }
      | _ => .next d
    | 9 => .next { d with pc := a }
    | op => .fault (.invalidInstruction (BitVec.ofNat 4 op) d)

/-- The model's layered step is the whole step of 40_fde_cycle.md R84, in every executing state. -/
def Obligations.StepMeetsListing : Prop :=
  ∀ s : State, s.execState = .executing → step s = Sys2Proof.Machine.listedStep s

/-- A held INPUT takes no step and changes nothing; one supplied word lifts the hold (43_io.md R123). That the hold is a
step answering the same state is the model's choice (log 4). -/
def Obligations.HeldInputWaitsForWord : Prop :=
  ∀ (s : State) (g : Addr) (w : Word), s.execState = .executing → s.backed s.pc →
    decodeWord s.nextWord = .ok (.input g) → s.inp = [] →
    step s = .next s ∧
      step (s.supplyInput w) =
        .next { s with mar := g, ir := s.nextWord, pc := inc12 s.pc, inReg := w, ac := w, inp := [] }

/-- While `STATE = Halted` no cycle starts: the model gives the call no meaning (40_fde_cycle.md R88, decision D4; log 5). -/
def Obligations.NoStepWhileHalted : Prop :=
  ∀ s : State, s.execState = .halted → step s = .refused .notExecuting

/-! ### Faults -/

/-- `InvalidInstruction(op)` (60_exceptions.md R141): raised by a cycle exactly when the fetched word's opcode is 0 or 10
to 15, carrying that opcode; no handler raises it. That it leaves `IR`, `PC` and `MAR` as Fetch and Decode wrote them and
all else as it was (40_fde_cycle.md R83; 60_exceptions.md R149) is the spec's decision D22 (log 6). -/
def Obligations.InvalidInstructionExactly : Prop :=
  (∀ (s : State) (op : Opcode) (u : State), s.execState = .executing → s.backed s.pc →
    (step s = .fault (.invalidInstruction op u) ↔
      op = opcode s.nextWord ∧ (op.toNat = 0 ∨ 10 ≤ op.toNat) ∧
        u = { s with mar := addr s.nextWord, ir := s.nextWord, pc := inc12 s.pc })) ∧
  ∀ (i : Instr) (s : State) (op : Opcode) (u : State), exec i s ≠ .fault (.invalidInstruction op u)

/-- `AddressOutOfRange(a)` (60_exceptions.md R142): raised in a cycle exactly at address `0xFFF` of a 4095-word memory, by
the Fetch or by LOAD, STORE, ADD or SUBT of that address; never with 4096 words. -/
def Obligations.AddressOutOfRangeExactly : Prop :=
  ∀ (s : State) (raw : Nat), s.execState = .executing →
    ((∃ u, step s = .fault (.addressOutOfRange raw u)) ↔
      raw = 0xFFF ∧ s.memSize = .w4095 ∧
        (s.pc = 0xFFF#12 ∨
          1 ≤ (opcode s.nextWord).toNat ∧ (opcode s.nextWord).toNat ≤ 4 ∧ addr s.nextWord = 0xFFF#12))

/-- A Fetch with no word at `PC` faults (40_fde_cycle.md R81). That `MAR` is written and all else, `IR` and `PC` among it,
keeps its value is derived there, by the spec's decision D22 (60_exceptions.md R149; log 6). -/
def Obligations.FetchFaultKeepsPcAndIr : Prop :=
  ∀ s : State, s.execState = .executing → ¬s.backed s.pc →
    step s = .fault (.addressOutOfRange s.pc.toNat { s with mar := s.pc })

/-- What every faulting cycle leaves as it was (60_exceptions.md R149, the spec's decision D22): `AC`, the I/O registers and records, memory and the
state flag; and `MBR`, unless the instruction is STORE, which has copied `AC` there. -/
def Obligations.FaultLeavesAcIoAndMemory : Prop :=
  ∀ (s : State) (r : Fault), step s = .fault r →
    r.left.ac = s.ac ∧ r.left.inReg = s.inReg ∧ r.left.outReg = s.outReg ∧ r.left.inp = s.inp ∧
      r.left.out = s.out ∧ r.left.mem = s.mem ∧ r.left.memSize = s.memSize ∧
      r.left.execState = .executing ∧
      (r.left.mbr = s.mbr ∨ opcode r.left.ir = 2#4 ∧ r.left.mbr = s.ac)

/-! ### Memory -/

/-- An address has no word behind it exactly when it is `0xFFF` and memory has 4095 words (20_memory.md R33, the spec's
decision D1). -/
def Obligations.OnlyTopAddressUnbacked : Prop :=
  ∀ (s : State) (a : Addr), ¬s.backed a ↔ s.memSize = .w4095 ∧ a = 0xFFF#12

/-- `MemWrite` (20_memory.md R36): all 16 bits of the word at `MAR` replaced and no other word, or the fault with the state
unchanged; STORE calls it with `MAR` and `MBR`, and no other instruction changes memory. -/
def Obligations.MemWriteReplacesOneWord : Prop :=
  (∀ (s : State) (v : Word), s.backed s.mar →
    ∃ t, memWriteMar s v = .next t ∧ t = { s with mem := t.mem } ∧
      ∀ a : Nat, t.mem.readWord a = if a = s.mar.toNat then v else s.mem.readWord a) ∧
  (∀ (s : State) (v : Word), ¬s.backed s.mar → memWriteMar s v = .fault (.addressOutOfRange s.mar.toNat s)) ∧
  (∀ (x : Addr) (s : State),
    exec (.store x) s = memWriteMar { s with mar := x, mbr := s.ac } ({ s with mar := x, mbr := s.ac } : State).mbr) ∧
  ∀ (i : Instr) (s t : State), exec i s = .next t → (∀ x, i ≠ .store x) → t.mem = s.mem

/-- The host's `get` and `set` check the raw address first (20_memory.md R34, R47, the spec's decision D2): beyond memory both report it; within,
a word set is the word got, and every other word is got as before. -/
def Obligations.HostSetThenGet : Prop :=
  (∀ (s : State) (raw : Nat) (w : Word), s.memSize.words ≤ raw →
    s.hostGet raw = .error (.addressOutOfRange raw) ∧ s.hostSet raw w = .error (.addressOutOfRange raw)) ∧
  ∀ (s : State) (raw : Nat) (w : Word), raw < s.memSize.words →
    ∃ t, s.hostSet raw w = .ok t ∧ t.hostGet raw = .ok w ∧
      ∀ raw', raw' ≠ raw → t.hostGet raw' = s.hostGet raw'

/-- Byte order (20_memory.md R37): a word is its high byte at the even backing address and its low byte after it, reading
and writing. -/
def Obligations.WordsAreBigEndianBytes : Prop :=
  (∀ (m : Memory) (a : Nat),
    (m.readWord a).toNat = (m.readByte (2 * a)).toNat * 256 + (m.readByte (2 * a + 1)).toNat) ∧
  ∀ (m : Memory) (a : Nat) (w : Word),
    ((m.writeWord a w).readByte (2 * a)).toNat = w.toNat / 256 ∧
      ((m.writeWord a w).readByte (2 * a + 1)).toNat = w.toNat % 256

/-- A store is seen by the very next Fetch (20_memory.md R48): STORE to the word after itself, and the next cycle runs what
was stored. -/
def Obligations.StoredWordIsFetchedNext : Prop :=
  ∀ s : State, s.execState = .executing → s.backed s.pc → s.backed (inc12 s.pc) →
    s.nextWord = encode (.store (inc12 s.pc)) →
    ∃ t, step s = .next t ∧ t.pc = inc12 s.pc ∧ t.nextWord = s.ac ∧
      fetch t = .next { t with mar := t.pc, ir := s.ac, pc := inc12 t.pc }

/-- Only a STORE cycle changes memory, and it changes one word (20_memory.md R41). -/
def Obligations.StepWritesAtMostOneWord : Prop :=
  ∀ s t : State, step s = .next t → ∀ k : Nat,
    t.mem.readByte k ≠ s.mem.readByte k →
      opcode s.nextWord = 2#4 ∧ (k = 2 * (addr s.nextWord).toNat ∨ k = 2 * (addr s.nextWord).toNat + 1)

/-! ### Registers over a whole cycle -/

/-- Assignment to `PC` and `MAR` keeps the low 12 bits, and the increment wraps (10_state.md R12, R13). -/
def Obligations.PcAndMarAreMasked : Prop :=
  (∀ (s : State) (v : Word), s.assignPc v = { s with pc := BitVec.ofNat 12 (v.toNat % 4096) } ∧
    s.assignMar v = { s with mar := BitVec.ofNat 12 (v.toNat % 4096) }) ∧
  ∀ a : Addr, (inc12 a).toNat = (a.toNat + 1) % 4096

/-- After a cycle that ran to its end, `IR` is the word it executed and `MAR` that word's address field, for every opcode
(10_state.md R11, R13); a held cycle changes nothing (log 4). -/
def Obligations.IrAndMarAfterCycle : Prop :=
  ∀ s t : State, step s = .next t →
    (t = s ∧ opcode s.nextWord = 5#4 ∧ s.inp = []) ∨ (t.ir = s.nextWord ∧ t.mar = addr s.nextWord)

/-- Where `PC` can go (44_control.md R133; 40_fde_cycle.md R85): the next word, one word past it by a SKIPCOND, or the
address field of a JUMP. -/
def Obligations.PcAfterCycle : Prop :=
  ∀ s t : State, step s = .next t →
    (t = s ∧ opcode s.nextWord = 5#4 ∧ s.inp = []) ∨
    (t.pc.toNat = (s.pc.toNat + 1) % 4096 ∧ opcode s.nextWord ≠ 9#4) ∨
    (t.pc.toNat = (s.pc.toNat + 2) % 4096 ∧ opcode s.nextWord = 8#4) ∨
    (t.pc = addr s.nextWord ∧ opcode s.nextWord = 9#4)

/-- `AC` is written only by LOAD, ADD, SUBT and INPUT, `MBR` only by LOAD, STORE, ADD and SUBT (10_state.md R10, R14). -/
def Obligations.AcAndMbrWriters : Prop :=
  ∀ s t : State, step s = .next t →
    (t.ac ≠ s.ac → opcode s.nextWord = 1#4 ∨ opcode s.nextWord = 3#4 ∨ opcode s.nextWord = 4#4 ∨
      opcode s.nextWord = 5#4) ∧
    (t.mbr ≠ s.mbr → 1 ≤ (opcode s.nextWord).toNat ∧ (opcode s.nextWord).toNat ≤ 4)

/-- `STATE` goes from Executing to Halted only by the HALT handler, and HALT always sets it; no fault changes it; every
accepted load sets Executing (10_state.md R17). That a step with a next state started in Executing is the spec's decision
D4 (40_fde_cycle.md R88; log 5); that a fault leaves `STATE` as it was is its decision D22 (log 6). -/
def Obligations.StateFlagTransitions : Prop :=
  (∀ s t : State, step s = .next t →
    s.execState = .executing ∧ (t.execState = .halted ↔ opcode s.nextWord = 7#4)) ∧
  (∀ (s : State) (r : Fault), step s = .fault r → r.left.execState = s.execState) ∧
  ∀ (image : List Byte) (l : Launch) (s t : State), State.load image l s = .ok t → t.execState = .executing

/-- One event per executed INPUT or OUTPUT and at no other time (43_io.md R122, R126, the spec's decision D6; log 18); a
held INPUT is no executed one (log 4). That `InREG` holds the word an INPUT took is the spec's decision D5 (R120; logs 3
and 13). -/
def Obligations.OneEventPerInputOrOutput : Prop :=
  ∀ s t : State, step s = .next t →
    t.out = (if opcode s.nextWord = 6#4 then s.out ++ [s.ac] else s.out) ∧
    (if opcode s.nextWord = 5#4 then
        (s.inp = [] ∧ t = s) ∨ (s.inp = t.ac :: t.inp ∧ t.inReg = t.ac)
      else t.inp = s.inp ∧ t.inReg = s.inReg)

/-- The signed reading of a word (42_arithmetic.md R113; the spec's decision D8): sign and zero tests against the ranges
and against the two's-complement value. -/
def Obligations.SignedReadingIsTwosComplement : Prop :=
  ∀ v : Word,
    (isNegative v = true ↔ v.toInt < 0) ∧ (isNegative v = true ↔ 0x8000 ≤ v.toNat) ∧
    (isZero v = true ↔ v.toInt = 0) ∧
    (isPositive v = true ↔ 0 < v.toInt) ∧ (isPositive v = true ↔ 1 ≤ v.toNat ∧ v.toNat ≤ 0x7FFF)

/-- `SUBT X` after `ADD X` gives `AC` back (42_arithmetic.md R112: `sub16(add16(a, b), b) = a`), through the two handlers. -/
def Obligations.SubtUndoesAdd : Prop :=
  ∀ (x : Addr) (s : State), s.backed x →
    ∃ t u, exec (.add x) s = .next t ∧ exec (.subt x) t = .next u ∧
      u = { s with mar := x, mbr := s.word x }

/-! ### Reset and the opcode table -/

/-- What reset leaves (70_reset_and_hazards.md R172 to R174). The 4095 words are the spec's decision D1 (00_scope.md R5;
log 1), and the empty `OUT` its decision D5 (R175; logs 3 and 19). `InREG` and `OutREG` are not stated: their reset values
are the model's choice (log 2), as is the empty input list (log 3). That reset is the load of the empty image is the
model's choice (log 8). -/
def Obligations.ResetLeavesLoadedState : Prop :=
  State.reset.ac = 0#16 ∧ State.reset.ir = 0#16 ∧ State.reset.mbr = 0#16 ∧ State.reset.mar = 0#12 ∧
    State.reset.pc = 0#12 ∧ State.reset.execState = .executing ∧ State.reset.out = [] ∧
    State.reset.memSize.words = 4095 ∧ (∀ a : Nat, State.reset.mem.readWord a = 0#16) ∧
    core.reset = State.reset

/-- Memory and the state flag after load (70_reset_and_hazards.md R172, R174): image words big-endian from address 0, zero
beyond, nothing of the old memory; trailing zero words of an image make no difference; `STATE = Executing`. -/
def Obligations.LoadReplacesMemory : Prop :=
  (∀ (image : List Byte) (l : Launch) (s t : State), State.load image l s = .ok t →
    t.execState = .executing ∧
    (∀ i : Nat, 2 * i < image.length →
      (t.mem.readWord i).toNat = (image.getD (2 * i) 0#8).toNat * 256 + (image.getD (2 * i + 1) 0#8).toNat) ∧
    ∀ i : Nat, image.length ≤ 2 * i → t.mem.readWord i = 0#16) ∧
  ∀ (image : List Byte) (n : Nat) (l : Launch) (s t u : State), State.load image l s = .ok t →
    State.load (image ++ List.replicate (2 * n) 0#8) l s = .ok u → u = t

/-- Registers and records after load, whatever the state was (70_reset_and_hazards.md R170, R173, R175): an accepted image
gives one launch state per memory size. `OUT` empty and `IN` at the start of the given sequence are the spec's decision D5
(R175) as the model puts it (log 19); that the launch values of `InREG` and `OutREG` are arguments is the model's choice
(log 2). -/
def Obligations.LoadIgnoresPriorState : Prop :=
  ∀ (image : List Byte) (l : Launch) (s s' : State), s.memSize = s'.memSize → image.length % 2 = 0 →
    image.length ≤ 2 * s.memSize.words →
    ∃ t, State.load image l s = .ok t ∧ State.load image l s' = .ok t ∧
      t.ac = 0#16 ∧ t.ir = 0#16 ∧ t.mbr = 0#16 ∧ t.mar = 0#12 ∧ t.pc = 0#12 ∧ t.out = [] ∧ t.inp = l.inputs ∧
      t.memSize = s.memSize

/-- The size check (70_reset_and_hazards.md R171): a longer image is rejected with its size in words. That a shorter image
of an odd number of bytes is refused is the spec's decision D16 (log 14). -/
def Obligations.LoadRejectsOversizedImage : Prop :=
  (∀ (image : List Byte) (l : Launch) (s : State) (n : Nat), image.length = 2 * n → s.memSize.words < n →
    State.load image l s = .error (.programTooLarge n)) ∧
  ∀ (image : List Byte) (l : Launch) (s : State), image.length < 2 * s.memSize.words → image.length % 2 = 1 →
    State.load image l s = .error (.oddImage image.length)

/-- Duplicate registration (40_fde_cycle.md R87; 60_exceptions.md R144), for any type of handlers: a registered opcode is
refused by name, an unregistered one is added and disturbs no other, so no registration replaces a default handler. -/
def Obligations.DuplicateRegistrationRefused : Prop :=
  (∀ (η : Type) (t : Config.OpcodeTable η) (op : Opcode) (h k : η), t.lookup op = some k →
    t.register op h = .error (.duplicateOpcode op)) ∧
  (∀ (η : Type) (t : Config.OpcodeTable η) (op : Opcode) (h : η), t.lookup op = none →
    ∃ t', t.register op h = .ok t' ∧ t'.lookup op = some h ∧ ∀ o, o ≠ op → t'.lookup o = t.lookup o) ∧
  (∀ (op o : Opcode) (h : Config.Handler) (t : Config.OpcodeTable Config.Handler),
    Config.defaultTable.register op h = .ok t → 1 ≤ o.toNat → o.toNat ≤ 9 →
    t.lookup o = Config.defaultTable.lookup o) ∧
  ∀ (ext : Extension) (op : Opcode) (h : State → Outcome), 1 ≤ op.toNat → op.toNat ≤ 9 →
    registerExtension ext op h = .error (.duplicateOpcode op)

/-- Whatever handlers the host registers, opcodes 1 to 9 keep their meaning (40_fde_cycle.md R87), and a free opcode that
is registered runs its handler in the state Fetch and Decode leave (R83, R86). -/
def Obligations.ExtensionsKeepDefaultHandlers : Prop :=
  ∀ (ext : Extension) (s : State), s.backed s.pc →
    (1 ≤ (opcode s.nextWord).toNat ∧ (opcode s.nextWord).toNat ≤ 9 → cycleWith ext s = cycle s) ∧
    ∀ h, (opcode s.nextWord).toNat = 0 ∨ 10 ≤ (opcode s.nextWord).toNat → ext.lookup (opcode s.nextWord) = some h →
      cycleWith ext s = h { s with mar := addr s.nextWord, ir := s.nextWord, pc := inc12 s.pc }

/-! ### Invariants and whole runs -/

/-- The invariant holds at reset: memory is canonical and names no byte that does not exist. -/
def Obligations.ResetMeetsInvariant : Prop := State.reset.Inv

/-- Every step keeps the invariant, in the next state and in the state a fault leaves (20_memory.md R32, R36). -/
def Obligations.StepKeepsInvariant : Prop :=
  ∀ s : State, s.Inv →
    (∀ t, step s = .next t → t.Inv) ∧ ∀ r, step s = .fault r → r.left.Inv

/-- Every state any accepted load can lead to, on any input sequence `IN`, meets the invariant and keeps the memory size it
was configured with. -/
def Obligations.ReachableFromLoadMeetsInvariant : Prop :=
  ∀ (input : InputSequence) (image : List Byte) (l : Launch) (s s₀ : State) (t : Run),
    State.load image l s = .ok s₀ → Reaches input (Run.start s₀) t → t.state.Inv ∧ t.state.memSize = s.memSize

/-- No program can see `InREG` or `OutREG` (10_state.md R15, R16, R23): executing states that differ in nothing else step
to outcomes that differ in nothing else (the spec's decision D10). So no claim about the rest depends on the reset values of log 2. -/
def Obligations.IoRegistersAreInvisible : Prop :=
  ∀ s t : State, s.hideIo = t.hideIo → sameButIo (step s) (step t)

/-- Over any run on any input sequence `IN`, finite or infinite, the words at hand and then those drawn from `IN` are taken
in order, each at most once, and no output word is ever taken back (00_scope.md R7; 43_io.md R120, R121). Words at hand in
the state before those of `IN` are the model's choice (log 3). -/
def Obligations.InputAndOutputAreSequences : Prop :=
  ∀ (input : InputSequence) (r t : Run), Reaches input r t →
    r.drawn ≤ t.drawn ∧
      (∃ taken, r.state.inp ++ input.between r.drawn t.drawn = taken ++ t.state.inp) ∧
      ∃ more, t.state.out = r.state.out ++ more

/-- The driving loop on any input sequence `IN` (40_fde_cycle.md R88, R90, the spec's decisions D3, D4, D24). It ends
normally only in a Halted state it reached by steps, and then stays ended; it faults only by the fault of a step it reached.
Conversely it follows each step, ends where a step halts, faults where a step faults, and a bound exists for every Halted
state a run reaches. -/
def Obligations.DriveEndsOnlyAtHalt : Prop :=
  ∀ (input : InputSequence) (r : Run),
    (∀ n t, drive input n r = .ended t →
      t.state.isFinal ∧ Reaches input r t ∧ ∀ k, drive input (n + k) r = .ended t) ∧
    (∀ n q, drive input n r = .faulted q → ∃ t, Reaches input r t ∧ stepOn input t = .fault q) ∧
    (r.state.isFinal → ∀ n, drive input n r = .ended r) ∧
    (∀ n t, stepOn input r = .next t →
      drive input (n + 1) r = drive input n t ∧ (t.state.isFinal → drive input (n + 1) r = .ended t)) ∧
    (∀ n q, stepOn input r = .fault q → drive input (n + 1) r = .faulted q) ∧
    ∀ t, Reaches input r t → t.state.isFinal → ∃ n, drive input n r = .ended t

/-! ### The assembler -/

/-- A one-operand line with a hexadecimal literal (30_encoding.md R63, R64), its mnemonic in any case of letters (R62),
emits R63's opcode and the low 12 bits of the literal at the cursor, which advances by one. That a literal's letters may be
of either case is the model's choice (log 23), as is that a slot filled before is replaced (log 24). -/
def Obligations.OperandLineEmitsEncodedWord : Prop :=
  ∀ (first : Assembler.Text) (op : Opcode) (c : Char) (cs : Assembler.Text) (n : Nat) (p : Assembler.Pass),
    (Assembler.upper first, op) ∈
      [(['L', 'O', 'A', 'D'], 1#4), (['S', 'T', 'O', 'R', 'E'], 2#4), (['A', 'D', 'D'], 3#4), (['S', 'U', 'B', 'T'], 4#4),
        (['S', 'K', 'I', 'P', 'C', 'O', 'N', 'D'], 8#4), (['J', 'U', 'M', 'P'], 9#4)] →
    (Assembler.decDigit c).isSome = true → Assembler.readHex (c :: cs) = some n → p.cursor < 4095 →
    ∃ q, Assembler.assembleLine [first, c :: cs] p = .ok q ∧
      q.cursor = p.cursor + 1 ∧ q.symbols = p.symbols ∧
      q.slots.find? (fun e => e.1 == p.cursor) = some (p.cursor, .literal (codec op (BitVec.ofNat 12 n)))

/-- The resolve pass (30_encoding.md R68) carried through to the loaded machine: for a source the assembler accepts, a slot
its lines left Empty is the word 0, a slot filled with a literal is that word, and one filled with a reference is the
opcode with the one address the name was declared at, wherever in the source. The image is 8190 bytes and load accepts
it. That the address is the only one of its name rests on the model's choice to refuse a name declared twice
(91_not_in_source.md N16; log 15), and that a slot is filled once on its choice to replace one filled before (log 24); 8190
bytes when `MEM_WORDS` is 4096 too is its choice (log 25). -/
def Obligations.AssembledImageLoads : Prop :=
  ∀ (source : Assembler.Text) (m : Assembler.Image) (l : Launch) (s : State), Assembler.assemble source = .ok m →
    (Assembler.Image.bytes m).length = 8190 ∧
    ∃ p t, Assembler.assembleLines (Assembler.sourceLines source) Assembler.Pass.start = .ok p ∧
      State.load (Assembler.Image.bytes m) l s = .ok t ∧
      ∀ i : Nat, i < 4095 →
        ((∀ slot, (i, slot) ∉ p.slots) → t.mem.readWord i = 0#16) ∧
        (∀ w, (i, .literal w) ∈ p.slots → t.mem.readWord i = w) ∧
        ∀ op name, (i, .variableRef op name) ∈ p.slots →
          ∃ a, (name, a) ∈ p.symbols ∧ (∀ b, (name, b) ∈ p.symbols → b = a) ∧ t.mem.readWord i = codec op a

/-! ### The host's input sequence -/

/-- `HostInput()` is a draw from `IN`, made for an INPUT that needs a word and at no other time (00_scope.md R7; 43_io.md
R120, R123; 70_reset_and_hazards.md R178): the INPUT completes with the word at the run's position; where a finite `IN` has
ended it holds; on an infinite `IN` it never does; no other cycle moves the position. Word, `InREG` and hold are the spec's
decision D5 (logs 3 and 13), the hold as a step is the model's choice (log 4). -/
def Obligations.InputDrawsFromSequence : Prop :=
  ∀ (input : InputSequence) (r : Run),
    (∀ g, r.state.execState = .executing → r.state.backed r.state.pc →
      decodeWord r.state.nextWord = .ok (.input g) → r.state.inp = [] →
      (∀ w, input.wordAt r.drawn = some w →
        stepOn input r = .next
          { state :=
              { r.state with
                mar := g, ir := r.state.nextWord, pc := inc12 r.state.pc, inReg := w, ac := w, inp := [] }
            drawn := r.drawn + 1 }) ∧
      (input.wordAt r.drawn = none → stepOn input r = .next r) ∧
      ∀ word, input = .infinite word →
        ∃ u, stepOn input r = .next u ∧ u.state.ac = word r.drawn ∧ u.drawn = r.drawn + 1) ∧
    ((opcode r.state.nextWord ≠ 5#4 ∨ r.state.inp ≠ []) → ∀ t, step r.state = .next t →
      stepOn input r = .next { state := t, drawn := r.drawn })

/-- A run on any `IN`, finite or infinite, is so far a run of the machine that was given the words drawn so far all at
once, before it began: when the host supplies a word makes no difference (00_scope.md R7; 43_io.md R123). -/
def Obligations.RunIsRunOnDrawnPrefix : Prop :=
  ∀ (input : InputSequence) (r t : Run), Reaches input r t →
    Reaches (.finite [])
      (Run.start { r.state with inp := r.state.inp ++ input.between r.drawn t.drawn }) (Run.start t.state)
end

