-- ==== Sys2Proof/Laws/Assembler.lean ====
section
/-! SUPPORT. What the assembler's passes can answer (30_encoding.md R62, R67, R68): the first pass fills each slot once
and declares each name once, and the resolve pass gives each slot's word. -/

namespace Sys2Proof.Machine.Assembler

/-- No slot is listed twice and no name is declared twice. -/
def Pass.Distinct (p : Pass) : Prop := (p.slots.map Prod.fst).Nodup ∧ (p.symbols.map Prod.fst).Nodup

theorem Pass.start_distinct : Pass.start.Distinct := ⟨List.nodup_nil, List.nodup_nil⟩

theorem emit_cases {token : Text} {slot : Slot} {p q : Pass} (h : emit token slot p = .ok q) :
    p.cursor < slotCount ∧ q = { p with
      cursor := p.cursor + 1, slots := (p.cursor, slot) :: p.slots.filter fun e => e.1 != p.cursor } := by
  unfold emit at h
  split at h
  · cases h; exact ⟨‹_›, rfl⟩
  · cases h

theorem emit_distinct {token : Text} {slot : Slot} {p q : Pass} (h : emit token slot p = .ok q) (hp : p.Distinct) :
    q.Distinct := by
  obtain ⟨-, rfl⟩ := emit_cases h
  exact ⟨List.nodup_cons.2 ⟨by simp, hp.1.sublist (List.filter_sublist.map _)⟩, hp.2⟩

theorem declare_cases {name kind value : Text} {p q : Pass} (h : declare name kind value p = .ok q) :
    (∀ a, (name, a) ∉ p.symbols) ∧ ∃ w, declaredWord kind value = .ok w ∧
      emit name (.literal w) { p with symbols := (name, BitVec.ofNat 12 p.cursor) :: p.symbols } = .ok q := by
  unfold declare at h
  split at h
  · cases h
  · rename_i hn
    split at h
    · rename_i w hw
      exact ⟨fun a ha => hn (List.any_eq_true.2 ⟨_, ha, by simp⟩), w, hw, h⟩
    · cases h

theorem declare_distinct {name kind value : Text} {p q : Pass} (h : declare name kind value p = .ok q)
    (hp : p.Distinct) : q.Distinct := by
  obtain ⟨hn, w, -, he⟩ := declare_cases h
  refine emit_distinct he ⟨hp.1, List.nodup_cons.2 ⟨fun hm => ?_, hp.2⟩⟩
  obtain ⟨e, hm, he⟩ := List.mem_map.1 hm
  exact hn e.2 (by rw [← show e.1 = name from he]; exact hm)

theorem declarationLine_distinct {first : Text} {rest : List Text} {p q : Pass}
    (h : declarationLine first rest p = .ok q) (hp : p.Distinct) : q.Distinct := by
  unfold declarationLine at h
  repeat' split at h
  all_goals first
    | cases h
    | exact declare_distinct h hp

theorem instructionLine_distinct {k : Config.Handler} {first : Text} {rest : List Text} {p q : Pass}
    (h : instructionLine k first rest p = .ok q) (hp : p.Distinct) : q.Distinct := by
  unfold instructionLine operandLine bareLine at h
  repeat' split at h
  all_goals first
    | cases h
    | exact emit_distinct h hp

theorem origin_cases {t : Text} {p q : Pass} (h : origin t p = .ok q) : ∃ n, n < slotCount ∧ q = { p with cursor := n } := by
  unfold origin at h
  split at h
  · split at h
    · cases h; exact ⟨_, ‹_›, rfl⟩
    · cases h
  · cases h

theorem assembleLine_distinct {line : List Text} {p q : Pass} (h : assembleLine line p = .ok q) (hp : p.Distinct) :
    q.Distinct := by
  unfold assembleLine at h
  split at h
  · cases h; exact hp
  · split at h
    · cases h; exact hp
    · split at h
      · exact instructionLine_distinct h hp
      · split at h
        · split at h
          · cases h
          · obtain ⟨n, -, rfl⟩ := origin_cases h; exact hp
          · cases h
        · split at h
          · cases h
          · exact declarationLine_distinct h hp

theorem assembleLines_distinct {lines : List (List Text)} {p q : Pass} (h : assembleLines lines p = .ok q)
    (hp : p.Distinct) : q.Distinct := by
  induction lines generalizing p with
  | nil => cases h; exact hp
  | cons l ls ih =>
    unfold assembleLines at h
    split at h
    · exact ih h (assembleLine_distinct ‹_› hp)
    · cases h

theorem symbolAddress_ok {symbols : List (Text × Addr)} {name : Text} {a : Addr}
    (h : symbolAddress symbols name = .ok a) : (name, a) ∈ symbols := by
  unfold symbolAddress at h
  split at h
  · rename_i e he
    cases h
    have hn : e.1 = name := by simpa using List.find?_some he
    exact hn ▸ List.mem_of_find?_eq_some he
  · split at h <;> cases h

/-- One slot's word, where the resolve pass succeeds. -/
theorem slotWord_cases {symbols : List (Text × Addr)} {slot : Slot} {w : Word} (h : slotWord symbols slot = .ok w) :
    slot = .literal w ∨ ∃ op name a, slot = .variableRef op name ∧ (name, a) ∈ symbols ∧ w = codec op a := by
  cases slot with
  | literal v => exact .inl (by injection h with h; rw [h])
  | variableRef op name =>
    cases hs : symbolAddress symbols name with
    | error e => simp [slotWord, hs, Except.map] at h
    | ok a =>
      simp only [slotWord, hs, Except.map, Except.ok.injEq] at h
      exact .inr ⟨op, name, a, rfl, symbolAddress_ok hs, h.symm⟩

theorem resolve_cons {symbols : List (Text × Addr)} {k : Nat} {slot : Slot} {rest : List (Nat × Slot)} {m : Image}
    (h : resolve symbols ((k, slot) :: rest) = .ok m) :
    ∃ w ws, slotWord symbols slot = .ok w ∧ resolve symbols rest = .ok ws ∧ m = (k, w) :: ws := by
  unfold resolve at h
  split at h
  · cases h
  · split at h
    · cases h; exact ⟨_, _, ‹_›, ‹_›, rfl⟩
    · cases h

/-- What the resolve pass answers at an index: zero where no slot is filled, else the filled slot's word. -/
theorem resolve_word {symbols : List (Text × Addr)} {slots : List (Nat × Slot)} {m : Image}
    (h : resolve symbols slots = .ok m) (hn : (slots.map Prod.fst).Nodup) (i : Nat) :
    ((∀ slot, (i, slot) ∉ slots) → Image.word m i = 0x0000#16) ∧
      ∀ slot, (i, slot) ∈ slots → slotWord symbols slot = .ok (Image.word m i) := by
  induction slots generalizing m with
  | nil => cases h; exact ⟨fun _ => rfl, by simp⟩
  | cons e slots ih =>
    obtain ⟨k, filled⟩ := e
    obtain ⟨w, ws, hw, hws, rfl⟩ := resolve_cons h
    obtain ⟨hk, hn⟩ := List.nodup_cons.1 hn
    by_cases he : k = i
    · subst he
      refine ⟨fun ha => absurd List.mem_cons_self (ha filled), fun slot hs => ?_⟩
      rcases List.mem_cons.1 hs with hs | hs
      · cases hs; simpa [Image.word] using hw
      · exact absurd (List.mem_map_of_mem (f := Prod.fst) hs) hk
    · simp only [Image.word, he, if_false, List.mem_cons, not_or]
      refine ⟨fun ha => (ih hws hn).1 fun slot => (ha slot).2, fun slot hs => (ih hws hn).2 slot ?_⟩
      exact hs.resolve_left fun hs => he (Prod.mk.inj hs).1.symm

end Sys2Proof.Machine.Assembler
end

