-- ==== Sys2Proof/Laws/Codec.lean ====
section
/-! SUPPORT. The small laws of the word codec and of the byte order: fields as numbers. -/

namespace Sys2Proof

/-- Concatenation as a number, the high part first (00_scope.md section 5.1). -/
theorem toNat_append_eq {n m : Nat} (x : BitVec n) (y : BitVec m) :
    (x ++ y).toNat = x.toNat * 2 ^ m + y.toNat := by
  rw [BitVec.toNat_append, ← Nat.shiftLeft_add_eq_or_of_lt y.isLt, Nat.shiftLeft_eq]

/-- A bit slice as a number. -/
theorem toNat_slice_eq {n : Nat} (x : BitVec n) (lo len : Nat) :
    (x.extractLsb' lo len).toNat = x.toNat / 2 ^ lo % 2 ^ len := by
  rw [BitVec.extractLsb'_toNat, Nat.shiftRight_eq_div_pow]

theorem highByte_wordOfBytes (hi lo : Byte) : highByte (wordOfBytes hi lo) = hi := by
  apply BitVec.eq_of_toNat_eq
  rw [highByte, wordOfBytes, toNat_slice_eq, toNat_append_eq]
  omega

theorem lowByte_wordOfBytes (hi lo : Byte) : lowByte (wordOfBytes hi lo) = lo := by
  apply BitVec.eq_of_toNat_eq
  rw [lowByte, wordOfBytes, toNat_slice_eq, toNat_append_eq]
  omega

/-- Splitting a word into its bytes loses nothing (20_memory.md R37). -/
theorem wordOfBytes_bytes (w : Word) : wordOfBytes (highByte w) (lowByte w) = w := by
  apply BitVec.eq_of_toNat_eq
  rw [wordOfBytes, toNat_append_eq, highByte, lowByte, toNat_slice_eq, toNat_slice_eq]
  omega

/-- The opcode as a number: `w >> 12` (30_encoding.md R51). -/
theorem toNat_opcode (w : Word) : (opcode w).toNat = w.toNat / 4096 := by
  rw [opcode, toNat_slice_eq]
  omega

/-- The address field as a number: `w & 0x0FFF` (30_encoding.md R51). -/
theorem toNat_addr (w : Word) : (addr w).toNat = w.toNat % 4096 := by
  rw [addr, toNat_slice_eq]
  omega

/-- The encoded word as a number (30_encoding.md R51). -/
theorem toNat_codec (op : Opcode) (a : Addr) : (codec op a).toNat = op.toNat * 4096 + a.toNat :=
  toNat_append_eq op a

end Sys2Proof
end

