-- ==== Sys2Proof/Laws/Memory.lean ====
section
/-! SUPPORT. The laws of the byte store: a read after a write, and the canonical form that every operation keeps. -/

namespace Sys2Proof.Machine

/-! ### Read after write, in every memory -/

theorem Memory.readByte_eraseByte (m : Memory) (a a' : Nat) :
    (Memory.eraseByte m a).readByte a' = if a' = a then Memory.unlisted else m.readByte a' := by
  induction m with
  | nil => simp [Memory.eraseByte, Memory.readByte]
  | cons c m ih =>
    obtain ⟨k, v⟩ := c
    simp only [Memory.eraseByte] at ih ⊢
    by_cases hk : k = a
    · subst hk
      rw [List.filter_cons_of_neg (by simp), ih, Memory.readByte]
      split
      · rfl
      · rw [if_neg (by omega)]
    · rw [List.filter_cons_of_pos (by simpa using hk), Memory.readByte, Memory.readByte, ih]
      split
      · rw [if_neg (by omega)]
      · rfl

theorem Memory.readByte_insertByte (m : Memory) (a a' : Nat) (b : Byte) (h : ∀ c ∈ m, c.1 ≠ a) :
    (Memory.insertByte m a b).readByte a' = if a' = a then b else m.readByte a' := by
  induction m with
  | nil =>
    simp only [Memory.insertByte, Memory.readByte, eq_comm]
  | cons c m ih =>
    obtain ⟨k, v⟩ := c
    have hk : k ≠ a := h (k, v) (by simp)
    have hm : ∀ c ∈ m, c.1 ≠ a := fun c hc => h c (by simp [hc])
    simp only [Memory.insertByte]
    split
    · simp only [Memory.readByte, eq_comm]
    · simp only [Memory.readByte, ih hm]
      split
      · rw [if_neg (by omega)]
      · rfl

theorem Memory.eraseByte_ne (m : Memory) (a : Nat) : ∀ c ∈ Memory.eraseByte m a, c.1 ≠ a := by
  intro c hc
  simpa [Memory.eraseByte] using (List.mem_filter.mp hc).2

/-- A byte written is the byte read back, and every other byte is as before. -/
theorem Memory.readByte_writeByte (m : Memory) (a a' : Nat) (b : Byte) :
    (Memory.writeByte m a b).readByte a' = if a' = a then b else m.readByte a' := by
  unfold Memory.writeByte
  split
  · rename_i hb
    rw [Memory.readByte_eraseByte, hb]
  · rw [Memory.readByte_insertByte _ _ _ _ (Memory.eraseByte_ne m a), Memory.readByte_eraseByte]
    split <;> rfl

/-- The bytes of a word written, and every other byte as before. -/
theorem Memory.readByte_writeWord (m : Memory) (a k : Nat) (w : Word) :
    (Memory.writeWord m a w).readByte k =
      if k = 2 * a + 1 then lowByte w else if k = 2 * a then highByte w else m.readByte k := by
  simp only [Memory.writeWord, Memory.readByte_writeByte]

/-- A word written is the word read back, and every other word is as before. -/
theorem Memory.readWord_writeWord (m : Memory) (a a' : Nat) (w : Word) :
    (Memory.writeWord m a w).readWord a' = if a' = a then w else m.readWord a' := by
  simp only [Memory.readWord, Memory.readByte_writeWord]
  by_cases h : a' = a
  · subst h
    simp [wordOfBytes_bytes]
  · rw [if_neg h, if_neg (by omega), if_neg (by omega), if_neg (by omega), if_neg (by omega)]

/-! ### The canonical form -/

theorem Memory.wf_nil : Memory.wf [] := by decide

theorem Memory.wf_eraseByte {m : Memory} (h : m.wf) (a : Nat) : (Memory.eraseByte m a).wf :=
  ⟨h.1.filter _, fun c hc => h.2 c (List.mem_filter.mp hc).1⟩

theorem Memory.mem_insertByte {m : Memory} {a : Nat} {b : Byte} {c : Host.Cell} (h : c ∈ Memory.insertByte m a b) :
    c = (a, b) ∨ c ∈ m := by
  induction m with
  | nil => simpa [Memory.insertByte] using h
  | cons d m ih =>
    obtain ⟨k, v⟩ := d
    simp only [Memory.insertByte] at h
    split at h
    · simpa using h
    · rcases List.mem_cons.mp h with rfl | h
      · exact .inr (by simp)
      · rcases ih h with h | h
        · exact .inl h
        · exact .inr (by simp [h])

theorem Memory.wf_insertByte {m : Memory} (h : m.wf) {a : Nat} {b : Byte} (hb : b ≠ Memory.unlisted)
    (ha : ∀ c ∈ m, c.1 ≠ a) : (Memory.insertByte m a b).wf := by
  refine ⟨?_, fun c hc => ?_⟩
  · have hs := h.1
    clear h hb
    induction m with
    | nil => simp [Memory.insertByte]
    | cons d m ih =>
      obtain ⟨k, v⟩ := d
      have hk : k ≠ a := ha (k, v) (by simp)
      have ⟨hlt, hm⟩ := List.pairwise_cons.mp hs
      simp only [Memory.insertByte]
      split
      · rename_i hak
        refine List.pairwise_cons.mpr ⟨fun c hc => ?_, hs⟩
        rcases List.mem_cons.mp hc with rfl | hc
        · exact hak
        · exact Nat.lt_trans hak (hlt c hc)
      · refine List.pairwise_cons.mpr ⟨fun c hc => ?_, ih (fun c hc => ha c (by simp [hc])) hm⟩
        rcases Memory.mem_insertByte hc with rfl | hc
        · show k < a
          omega
        · exact hlt c hc
  · rcases Memory.mem_insertByte hc with rfl | hc
    · exact hb
    · exact h.2 c hc

/-- Writing a byte keeps the canonical form. -/
theorem Memory.wf_writeByte {m : Memory} (h : m.wf) (a : Nat) (b : Byte) : (Memory.writeByte m a b).wf := by
  unfold Memory.writeByte
  split
  · exact Memory.wf_eraseByte h a
  · exact Memory.wf_insertByte (Memory.wf_eraseByte h a) (by assumption) (Memory.eraseByte_ne m a)

/-- Writing a word keeps the canonical form. -/
theorem Memory.wf_writeWord {m : Memory} (h : m.wf) (a : Nat) (w : Word) : (Memory.writeWord m a w).wf :=
  Memory.wf_writeByte (Memory.wf_writeByte h _ _) _ _

/-- The component's `set` keeps the canonical form. -/
theorem Memory.wf_set {size : Config.MemSize} {m m' : Memory} {raw : Nat} {w : Word} (h : m.wf)
    (hs : Memory.set size m raw w = some m') : m'.wf := by
  simp only [Memory.set] at hs
  split at hs
  · simp only [Option.some.injEq] at hs
    exact hs ▸ Memory.wf_writeWord h _ _
  · simp at hs

theorem Memory.mem_ofBytes {start : Nat} {bs : List Byte} {c : Host.Cell} (h : c ∈ Memory.ofBytes start bs) :
    start ≤ c.1 ∧ c.1 < start + bs.length := by
  induction bs generalizing start with
  | nil => simp [Memory.ofBytes] at h
  | cons b bs ih =>
    simp only [Memory.ofBytes] at h
    simp only [List.length_cons]
    split at h
    · have := ih h
      omega
    · rcases List.mem_cons.mp h with rfl | h
      · exact ⟨Nat.le_refl _, by simp⟩
      · have := ih h
        omega

/-- A loaded image is in canonical form. -/
theorem Memory.wf_ofBytes (start : Nat) (bs : List Byte) : (Memory.ofBytes start bs).wf := by
  induction bs generalizing start with
  | nil => exact Memory.wf_nil
  | cons b bs ih =>
    simp only [Memory.ofBytes]
    split
    · exact ih _
    · rename_i hb
      refine ⟨List.pairwise_cons.mpr ⟨fun c hc => ?_, (ih _).1⟩, fun c hc => ?_⟩
      · exact Nat.lt_of_lt_of_le (Nat.lt_succ_self _) (Memory.mem_ofBytes hc).1
      · rcases List.mem_cons.mp hc with rfl | hc
        · exact hb
        · exact (ih _).2 c hc

/-- What a loaded image reads as: its bytes, then zeros (70_reset_and_hazards.md R172). -/
theorem Memory.readByte_ofBytes (start : Nat) (bs : List Byte) (k : Nat) :
    (Memory.ofBytes start bs).readByte (start + k) = bs.getD k Memory.unlisted := by
  induction bs generalizing start k with
  | nil => simp [Memory.ofBytes, Memory.readByte]
  | cons b bs ih =>
    have tail_zero : (Memory.ofBytes (start + 1) bs).readByte start = Memory.unlisted := by
      have hne : ∀ c ∈ Memory.ofBytes (start + 1) bs, c.1 ≠ start := fun c hc => by
        have := (Memory.mem_ofBytes hc).1
        omega
      generalize Memory.ofBytes (start + 1) bs = m at hne
      clear ih
      induction m with
      | nil => rfl
      | cons c m ihm =>
        obtain ⟨x, v⟩ := c
        rw [Memory.readByte, if_neg (hne (x, v) (by simp)), ihm fun c hc => hne c (by simp [hc])]
    cases k with
    | zero =>
      simp only [Memory.ofBytes, Nat.add_zero, List.getD_cons_zero]
      split
      · rename_i hb
        rw [tail_zero, hb]
      · simp [Memory.readByte]
    | succ k =>
      have step := ih (start + 1) k
      rw [show start + 1 + k = start + (k + 1) by omega] at step
      simp only [Memory.ofBytes, List.getD_cons_succ]
      split
      · exact step
      · rw [Memory.readByte, if_neg (by omega), step]

/-! ### The bound of the words that exist -/

theorem Memory.within_writeByte {m : Memory} {words a : Nat} {b : Byte} (h : Memory.within words m)
    (ha : a < 2 * words) : Memory.within words (Memory.writeByte m a b) := by
  intro c hc
  unfold Memory.writeByte at hc
  split at hc
  · exact h c (List.mem_filter.mp hc).1
  · rcases Memory.mem_insertByte hc with rfl | hc
    · exact ha
    · exact h c (List.mem_filter.mp hc).1

/-- Writing a word that exists lists no byte beyond the words that exist. -/
theorem Memory.within_writeWord {m : Memory} {words a : Nat} {w : Word} (h : Memory.within words m)
    (ha : a < words) : Memory.within words (Memory.writeWord m a w) :=
  Memory.within_writeByte (Memory.within_writeByte h (by omega)) (by omega)

/-! ### `get` and `set` -/

theorem memSize_words_le (size : Config.MemSize) : size.words ≤ 4096 := by
  cases size <;> decide

/-- The mask changes nothing once the check has passed (20_memory.md R34). -/
theorem maskRaw_of_lt {size : Config.MemSize} {raw : Nat} (h : raw < size.words) : maskRaw raw = raw :=
  Nat.mod_eq_of_lt (Nat.lt_of_lt_of_le h (memSize_words_le size))

theorem Memory.get_of_lt {size : Config.MemSize} {raw : Nat} (m : Memory) (h : raw < size.words) :
    Memory.get size m raw = some (m.readWord raw) := by
  rw [Memory.get, if_pos h, maskRaw_of_lt h]

theorem Memory.get_of_not_lt {size : Config.MemSize} {raw : Nat} (m : Memory) (h : ¬raw < size.words) :
    Memory.get size m raw = none := by
  rw [Memory.get, if_neg h]

theorem Memory.set_of_lt {size : Config.MemSize} {raw : Nat} (m : Memory) (w : Word) (h : raw < size.words) :
    Memory.set size m raw w = some (m.writeWord raw w) := by
  rw [Memory.set, if_pos h, maskRaw_of_lt h]

theorem Memory.set_of_not_lt {size : Config.MemSize} {raw : Nat} (m : Memory) (w : Word) (h : ¬raw < size.words) :
    Memory.set size m raw w = none := by
  rw [Memory.set, if_neg h]

end Sys2Proof.Machine
end

