-- ==== Sys2Proof/Laws/Load.lean ====
section
/-! SUPPORT. What load answers, and what the loaded memory reads as. -/

namespace Sys2Proof.Machine

/-- An accepted load answers the launch state of a whole-word image that fits (70_reset_and_hazards.md R171). -/
theorem load_eq_ok {image : List Byte} {l : Launch} {s t : State} :
    State.load image l s = .ok t ↔
      image.length ≤ 2 * s.memSize.words ∧ image.length % 2 = 0 ∧ t = launchState s.memSize image l := by
  unfold State.load
  split
  · simp only [reduceCtorEq, false_iff]
    omega
  · split
    · simp only [reduceCtorEq, false_iff]
      omega
    · rw [Except.ok.injEq]
      constructor
      · rintro rfl
        exact ⟨by omega, by omega, rfl⟩
      · exact fun h => h.2.2.symm

/-- The bytes of a launch state: the image, then zeros (70_reset_and_hazards.md R172). -/
theorem readByte_launchState (size : Config.MemSize) (image : List Byte) (l : Launch) (k : Nat) :
    (launchState size image l).mem.readByte k = image.getD k Memory.unlisted := by
  rw [show (launchState size image l).mem = Memory.ofBytes 0 image from rfl, ← Memory.readByte_ofBytes 0, Nat.zero_add]

/-- Reset is the load of the empty image, on whatever state, with the values log 2 and log 3 name. -/
theorem reset_eq_load (s : State) (h : s.memSize = .w4095) :
    State.load [] { inputs := [], inReg := 0#16, outReg := 0#16 } s = .ok State.reset := by
  rw [load_eq_ok, h]
  exact ⟨by simp, rfl, rfl⟩

end Sys2Proof.Machine
end

