-- ==== Sys2Proof/Laws/State.lean ====
section
/-! SUPPORT. One lemma per field per register writer, true by rfl, so that no proof unfolds a record update. -/

namespace Sys2Proof.Machine

@[simp] theorem State.setAc_ac (s : State) (v : Word) : (s.setAc v).ac = v := rfl
@[simp] theorem State.setAc_ir (s : State) (v : Word) : (s.setAc v).ir = s.ir := rfl
@[simp] theorem State.setAc_pc (s : State) (v : Word) : (s.setAc v).pc = s.pc := rfl
@[simp] theorem State.setAc_mar (s : State) (v : Word) : (s.setAc v).mar = s.mar := rfl
@[simp] theorem State.setAc_mbr (s : State) (v : Word) : (s.setAc v).mbr = s.mbr := rfl
@[simp] theorem State.setAc_inReg (s : State) (v : Word) : (s.setAc v).inReg = s.inReg := rfl
@[simp] theorem State.setAc_outReg (s : State) (v : Word) : (s.setAc v).outReg = s.outReg := rfl
@[simp] theorem State.setAc_execState (s : State) (v : Word) : (s.setAc v).execState = s.execState := rfl
@[simp] theorem State.setAc_mem (s : State) (v : Word) : (s.setAc v).mem = s.mem := rfl
@[simp] theorem State.setAc_inp (s : State) (v : Word) : (s.setAc v).inp = s.inp := rfl
@[simp] theorem State.setAc_out (s : State) (v : Word) : (s.setAc v).out = s.out := rfl
@[simp] theorem State.setAc_memSize (s : State) (v : Word) : (s.setAc v).memSize = s.memSize := rfl

@[simp] theorem State.setIr_ac (s : State) (v : Word) : (s.setIr v).ac = s.ac := rfl
@[simp] theorem State.setIr_ir (s : State) (v : Word) : (s.setIr v).ir = v := rfl
@[simp] theorem State.setIr_pc (s : State) (v : Word) : (s.setIr v).pc = s.pc := rfl
@[simp] theorem State.setIr_mar (s : State) (v : Word) : (s.setIr v).mar = s.mar := rfl
@[simp] theorem State.setIr_mbr (s : State) (v : Word) : (s.setIr v).mbr = s.mbr := rfl
@[simp] theorem State.setIr_inReg (s : State) (v : Word) : (s.setIr v).inReg = s.inReg := rfl
@[simp] theorem State.setIr_outReg (s : State) (v : Word) : (s.setIr v).outReg = s.outReg := rfl
@[simp] theorem State.setIr_execState (s : State) (v : Word) : (s.setIr v).execState = s.execState := rfl
@[simp] theorem State.setIr_mem (s : State) (v : Word) : (s.setIr v).mem = s.mem := rfl
@[simp] theorem State.setIr_inp (s : State) (v : Word) : (s.setIr v).inp = s.inp := rfl
@[simp] theorem State.setIr_out (s : State) (v : Word) : (s.setIr v).out = s.out := rfl
@[simp] theorem State.setIr_memSize (s : State) (v : Word) : (s.setIr v).memSize = s.memSize := rfl

@[simp] theorem State.setPc_ac (s : State) (v : Addr) : (s.setPc v).ac = s.ac := rfl
@[simp] theorem State.setPc_ir (s : State) (v : Addr) : (s.setPc v).ir = s.ir := rfl
@[simp] theorem State.setPc_pc (s : State) (v : Addr) : (s.setPc v).pc = v := rfl
@[simp] theorem State.setPc_mar (s : State) (v : Addr) : (s.setPc v).mar = s.mar := rfl
@[simp] theorem State.setPc_mbr (s : State) (v : Addr) : (s.setPc v).mbr = s.mbr := rfl
@[simp] theorem State.setPc_inReg (s : State) (v : Addr) : (s.setPc v).inReg = s.inReg := rfl
@[simp] theorem State.setPc_outReg (s : State) (v : Addr) : (s.setPc v).outReg = s.outReg := rfl
@[simp] theorem State.setPc_execState (s : State) (v : Addr) : (s.setPc v).execState = s.execState := rfl
@[simp] theorem State.setPc_mem (s : State) (v : Addr) : (s.setPc v).mem = s.mem := rfl
@[simp] theorem State.setPc_inp (s : State) (v : Addr) : (s.setPc v).inp = s.inp := rfl
@[simp] theorem State.setPc_out (s : State) (v : Addr) : (s.setPc v).out = s.out := rfl
@[simp] theorem State.setPc_memSize (s : State) (v : Addr) : (s.setPc v).memSize = s.memSize := rfl

@[simp] theorem State.setMar_ac (s : State) (v : Addr) : (s.setMar v).ac = s.ac := rfl
@[simp] theorem State.setMar_ir (s : State) (v : Addr) : (s.setMar v).ir = s.ir := rfl
@[simp] theorem State.setMar_pc (s : State) (v : Addr) : (s.setMar v).pc = s.pc := rfl
@[simp] theorem State.setMar_mar (s : State) (v : Addr) : (s.setMar v).mar = v := rfl
@[simp] theorem State.setMar_mbr (s : State) (v : Addr) : (s.setMar v).mbr = s.mbr := rfl
@[simp] theorem State.setMar_inReg (s : State) (v : Addr) : (s.setMar v).inReg = s.inReg := rfl
@[simp] theorem State.setMar_outReg (s : State) (v : Addr) : (s.setMar v).outReg = s.outReg := rfl
@[simp] theorem State.setMar_execState (s : State) (v : Addr) : (s.setMar v).execState = s.execState := rfl
@[simp] theorem State.setMar_mem (s : State) (v : Addr) : (s.setMar v).mem = s.mem := rfl
@[simp] theorem State.setMar_inp (s : State) (v : Addr) : (s.setMar v).inp = s.inp := rfl
@[simp] theorem State.setMar_out (s : State) (v : Addr) : (s.setMar v).out = s.out := rfl
@[simp] theorem State.setMar_memSize (s : State) (v : Addr) : (s.setMar v).memSize = s.memSize := rfl

@[simp] theorem State.setMbr_ac (s : State) (v : Word) : (s.setMbr v).ac = s.ac := rfl
@[simp] theorem State.setMbr_ir (s : State) (v : Word) : (s.setMbr v).ir = s.ir := rfl
@[simp] theorem State.setMbr_pc (s : State) (v : Word) : (s.setMbr v).pc = s.pc := rfl
@[simp] theorem State.setMbr_mar (s : State) (v : Word) : (s.setMbr v).mar = s.mar := rfl
@[simp] theorem State.setMbr_mbr (s : State) (v : Word) : (s.setMbr v).mbr = v := rfl
@[simp] theorem State.setMbr_inReg (s : State) (v : Word) : (s.setMbr v).inReg = s.inReg := rfl
@[simp] theorem State.setMbr_outReg (s : State) (v : Word) : (s.setMbr v).outReg = s.outReg := rfl
@[simp] theorem State.setMbr_execState (s : State) (v : Word) : (s.setMbr v).execState = s.execState := rfl
@[simp] theorem State.setMbr_mem (s : State) (v : Word) : (s.setMbr v).mem = s.mem := rfl
@[simp] theorem State.setMbr_inp (s : State) (v : Word) : (s.setMbr v).inp = s.inp := rfl
@[simp] theorem State.setMbr_out (s : State) (v : Word) : (s.setMbr v).out = s.out := rfl
@[simp] theorem State.setMbr_memSize (s : State) (v : Word) : (s.setMbr v).memSize = s.memSize := rfl

@[simp] theorem State.setInReg_ac (s : State) (v : Word) : (s.setInReg v).ac = s.ac := rfl
@[simp] theorem State.setInReg_ir (s : State) (v : Word) : (s.setInReg v).ir = s.ir := rfl
@[simp] theorem State.setInReg_pc (s : State) (v : Word) : (s.setInReg v).pc = s.pc := rfl
@[simp] theorem State.setInReg_mar (s : State) (v : Word) : (s.setInReg v).mar = s.mar := rfl
@[simp] theorem State.setInReg_mbr (s : State) (v : Word) : (s.setInReg v).mbr = s.mbr := rfl
@[simp] theorem State.setInReg_inReg (s : State) (v : Word) : (s.setInReg v).inReg = v := rfl
@[simp] theorem State.setInReg_outReg (s : State) (v : Word) : (s.setInReg v).outReg = s.outReg := rfl
@[simp] theorem State.setInReg_execState (s : State) (v : Word) : (s.setInReg v).execState = s.execState := rfl
@[simp] theorem State.setInReg_mem (s : State) (v : Word) : (s.setInReg v).mem = s.mem := rfl
@[simp] theorem State.setInReg_inp (s : State) (v : Word) : (s.setInReg v).inp = s.inp := rfl
@[simp] theorem State.setInReg_out (s : State) (v : Word) : (s.setInReg v).out = s.out := rfl
@[simp] theorem State.setInReg_memSize (s : State) (v : Word) : (s.setInReg v).memSize = s.memSize := rfl

@[simp] theorem State.setOutReg_ac (s : State) (v : Word) : (s.setOutReg v).ac = s.ac := rfl
@[simp] theorem State.setOutReg_ir (s : State) (v : Word) : (s.setOutReg v).ir = s.ir := rfl
@[simp] theorem State.setOutReg_pc (s : State) (v : Word) : (s.setOutReg v).pc = s.pc := rfl
@[simp] theorem State.setOutReg_mar (s : State) (v : Word) : (s.setOutReg v).mar = s.mar := rfl
@[simp] theorem State.setOutReg_mbr (s : State) (v : Word) : (s.setOutReg v).mbr = s.mbr := rfl
@[simp] theorem State.setOutReg_inReg (s : State) (v : Word) : (s.setOutReg v).inReg = s.inReg := rfl
@[simp] theorem State.setOutReg_outReg (s : State) (v : Word) : (s.setOutReg v).outReg = v := rfl
@[simp] theorem State.setOutReg_execState (s : State) (v : Word) : (s.setOutReg v).execState = s.execState := rfl
@[simp] theorem State.setOutReg_mem (s : State) (v : Word) : (s.setOutReg v).mem = s.mem := rfl
@[simp] theorem State.setOutReg_inp (s : State) (v : Word) : (s.setOutReg v).inp = s.inp := rfl
@[simp] theorem State.setOutReg_out (s : State) (v : Word) : (s.setOutReg v).out = s.out := rfl
@[simp] theorem State.setOutReg_memSize (s : State) (v : Word) : (s.setOutReg v).memSize = s.memSize := rfl

@[simp] theorem State.setExecState_ac (s : State) (v : ExecutionState) : (s.setExecState v).ac = s.ac := rfl
@[simp] theorem State.setExecState_ir (s : State) (v : ExecutionState) : (s.setExecState v).ir = s.ir := rfl
@[simp] theorem State.setExecState_pc (s : State) (v : ExecutionState) : (s.setExecState v).pc = s.pc := rfl
@[simp] theorem State.setExecState_mar (s : State) (v : ExecutionState) : (s.setExecState v).mar = s.mar := rfl
@[simp] theorem State.setExecState_mbr (s : State) (v : ExecutionState) : (s.setExecState v).mbr = s.mbr := rfl
@[simp] theorem State.setExecState_inReg (s : State) (v : ExecutionState) : (s.setExecState v).inReg = s.inReg := rfl
@[simp] theorem State.setExecState_outReg (s : State) (v : ExecutionState) : (s.setExecState v).outReg = s.outReg := rfl
@[simp] theorem State.setExecState_execState (s : State) (v : ExecutionState) : (s.setExecState v).execState = v := rfl
@[simp] theorem State.setExecState_mem (s : State) (v : ExecutionState) : (s.setExecState v).mem = s.mem := rfl
@[simp] theorem State.setExecState_inp (s : State) (v : ExecutionState) : (s.setExecState v).inp = s.inp := rfl
@[simp] theorem State.setExecState_out (s : State) (v : ExecutionState) : (s.setExecState v).out = s.out := rfl
@[simp] theorem State.setExecState_memSize (s : State) (v : ExecutionState) : (s.setExecState v).memSize = s.memSize := rfl

@[simp] theorem State.setMem_ac (s : State) (v : Memory) : (s.setMem v).ac = s.ac := rfl
@[simp] theorem State.setMem_ir (s : State) (v : Memory) : (s.setMem v).ir = s.ir := rfl
@[simp] theorem State.setMem_pc (s : State) (v : Memory) : (s.setMem v).pc = s.pc := rfl
@[simp] theorem State.setMem_mar (s : State) (v : Memory) : (s.setMem v).mar = s.mar := rfl
@[simp] theorem State.setMem_mbr (s : State) (v : Memory) : (s.setMem v).mbr = s.mbr := rfl
@[simp] theorem State.setMem_inReg (s : State) (v : Memory) : (s.setMem v).inReg = s.inReg := rfl
@[simp] theorem State.setMem_outReg (s : State) (v : Memory) : (s.setMem v).outReg = s.outReg := rfl
@[simp] theorem State.setMem_execState (s : State) (v : Memory) : (s.setMem v).execState = s.execState := rfl
@[simp] theorem State.setMem_mem (s : State) (v : Memory) : (s.setMem v).mem = v := rfl
@[simp] theorem State.setMem_inp (s : State) (v : Memory) : (s.setMem v).inp = s.inp := rfl
@[simp] theorem State.setMem_out (s : State) (v : Memory) : (s.setMem v).out = s.out := rfl
@[simp] theorem State.setMem_memSize (s : State) (v : Memory) : (s.setMem v).memSize = s.memSize := rfl

@[simp] theorem State.setInp_ac (s : State) (v : List Word) : (s.setInp v).ac = s.ac := rfl
@[simp] theorem State.setInp_ir (s : State) (v : List Word) : (s.setInp v).ir = s.ir := rfl
@[simp] theorem State.setInp_pc (s : State) (v : List Word) : (s.setInp v).pc = s.pc := rfl
@[simp] theorem State.setInp_mar (s : State) (v : List Word) : (s.setInp v).mar = s.mar := rfl
@[simp] theorem State.setInp_mbr (s : State) (v : List Word) : (s.setInp v).mbr = s.mbr := rfl
@[simp] theorem State.setInp_inReg (s : State) (v : List Word) : (s.setInp v).inReg = s.inReg := rfl
@[simp] theorem State.setInp_outReg (s : State) (v : List Word) : (s.setInp v).outReg = s.outReg := rfl
@[simp] theorem State.setInp_execState (s : State) (v : List Word) : (s.setInp v).execState = s.execState := rfl
@[simp] theorem State.setInp_mem (s : State) (v : List Word) : (s.setInp v).mem = s.mem := rfl
@[simp] theorem State.setInp_inp (s : State) (v : List Word) : (s.setInp v).inp = v := rfl
@[simp] theorem State.setInp_out (s : State) (v : List Word) : (s.setInp v).out = s.out := rfl
@[simp] theorem State.setInp_memSize (s : State) (v : List Word) : (s.setInp v).memSize = s.memSize := rfl

@[simp] theorem State.setOut_ac (s : State) (v : List Word) : (s.setOut v).ac = s.ac := rfl
@[simp] theorem State.setOut_ir (s : State) (v : List Word) : (s.setOut v).ir = s.ir := rfl
@[simp] theorem State.setOut_pc (s : State) (v : List Word) : (s.setOut v).pc = s.pc := rfl
@[simp] theorem State.setOut_mar (s : State) (v : List Word) : (s.setOut v).mar = s.mar := rfl
@[simp] theorem State.setOut_mbr (s : State) (v : List Word) : (s.setOut v).mbr = s.mbr := rfl
@[simp] theorem State.setOut_inReg (s : State) (v : List Word) : (s.setOut v).inReg = s.inReg := rfl
@[simp] theorem State.setOut_outReg (s : State) (v : List Word) : (s.setOut v).outReg = s.outReg := rfl
@[simp] theorem State.setOut_execState (s : State) (v : List Word) : (s.setOut v).execState = s.execState := rfl
@[simp] theorem State.setOut_mem (s : State) (v : List Word) : (s.setOut v).mem = s.mem := rfl
@[simp] theorem State.setOut_inp (s : State) (v : List Word) : (s.setOut v).inp = s.inp := rfl
@[simp] theorem State.setOut_out (s : State) (v : List Word) : (s.setOut v).out = v := rfl
@[simp] theorem State.setOut_memSize (s : State) (v : List Word) : (s.setOut v).memSize = s.memSize := rfl

/-- A masked assignment to `PC` is the assignment of the truncated value (10_state.md R12). -/
@[simp] theorem State.assignPc_eq (s : State) (v : Word) : s.assignPc v = s.setPc (trunc12 v) := rfl

/-- A masked assignment to `MAR` is the assignment of the truncated value (10_state.md R13). -/
@[simp] theorem State.assignMar_eq (s : State) (v : Word) : s.assignMar v = s.setMar (trunc12 v) := rfl

/-- The masked value of a word is its address field: both are the low 12 bits. -/
theorem trunc12_eq_addr (v : Word) : trunc12 v = addr v := by
  apply BitVec.eq_of_toNat_eq
  simp [trunc12, addr]

end Sys2Proof.Machine
end

