-- ==== Sys2Proof/Laws/Ops.lean ====
section
/-! SUPPORT. One lemma per shared operation: everything it can answer. -/

namespace Sys2Proof.Machine

@[simp] theorem andThen_next (s : State) (f : State → Outcome) : andThen (.next s) f = f s := rfl
@[simp] theorem andThen_fault (r : Fault) (f : State → Outcome) : andThen (.fault r) f = .fault r := rfl
@[simp] theorem andThen_refused (r : Refusal) (f : State → Outcome) : andThen (.refused r) f = .refused r := rfl

/-- A sequence answers a next state only through a next state of its first part. -/
theorem andThen_eq_next {o : Outcome} {f : State → Outcome} {t : State} :
    andThen o f = .next t ↔ ∃ s, o = .next s ∧ f s = .next t := by
  cases o <;> simp

/-- A sequence faults in its first part, or in its second. -/
theorem andThen_eq_fault {o : Outcome} {f : State → Outcome} {r : Fault} :
    andThen o f = .fault r ↔ o = .fault r ∨ ∃ s, o = .next s ∧ f s = .fault r := by
  cases o <;> simp

/-- `MemRead` at `MAR` (20_memory.md R35). -/
theorem memReadMar_eq (s : State) (k : Word → Outcome) :
    memReadMar s k =
      if s.backed s.mar then k (s.word s.mar) else .fault (.addressOutOfRange s.mar.toNat s) := by
  unfold memReadMar
  split
  · rename_i v hv
    by_cases h : s.backed s.mar
    · rw [Memory.get_of_lt _ h, Option.some.injEq] at hv
      rw [if_pos h, ← hv]
      rfl
    · rw [Memory.get_of_not_lt _ h] at hv
      simp at hv
  · rename_i hv
    by_cases h : s.backed s.mar
    · rw [Memory.get_of_lt _ h] at hv
      simp at hv
    · rw [if_neg h]
      rfl

/-- `MemWrite` at `MAR` (20_memory.md R36). -/
theorem memWriteMar_eq (s : State) (v : Word) :
    memWriteMar s v =
      if s.backed s.mar then .next (s.setMem (s.mem.writeWord s.mar.toNat v))
      else .fault (.addressOutOfRange s.mar.toNat s) := by
  unfold memWriteMar
  split
  · rename_i m hm
    by_cases h : s.backed s.mar
    · rw [Memory.set_of_lt _ _ h, Option.some.injEq] at hm
      rw [if_pos h, ← hm]
    · rw [Memory.set_of_not_lt _ _ h] at hm
      simp at hm
  · rename_i hm
    by_cases h : s.backed s.mar
    · rw [Memory.set_of_lt _ _ h] at hm
      simp at hm
    · rw [if_neg h]
      rfl

/-- The memory operand of LOAD, ADD and SUBT (41_load_store.md R100). -/
theorem readOperand_eq (x : Addr) (s : State) :
    readOperand x s =
      if s.backed x then .next { s with mar := x, mbr := s.word x }
      else .fault (.addressOutOfRange x.toNat { s with mar := x }) := by
  rw [readOperand, memReadMar_eq]
  rfl

/-- The memory destination of STORE (41_load_store.md R101). -/
theorem writeOperand_eq (x : Addr) (s : State) :
    writeOperand x s =
      if s.backed x then .next { s with mar := x, mbr := s.ac, mem := s.mem.writeWord x.toNat s.ac }
      else .fault (.addressOutOfRange x.toNat { s with mar := x, mbr := s.ac }) := by
  rw [writeOperand, memWriteMar_eq]
  rfl

/-- Fetch (40_fde_cycle.md R81). -/
theorem fetch_eq (s : State) :
    fetch s =
      if s.backed s.pc then .next { s with mar := s.pc, ir := s.word s.pc, pc := inc12 s.pc }
      else .fault (.addressOutOfRange s.pc.toNat { s with mar := s.pc }) := by
  rw [fetch, memReadMar_eq]
  rfl

/-- Decode (40_fde_cycle.md R82). -/
theorem decodeStage_eq (s : State) : decodeStage s = { s with mar := addr s.ir } := by
  rw [decodeStage, State.assignMar_eq, trunc12_eq_addr]
  rfl

end Sys2Proof.Machine
end

