-- ==== Sys2Proof/Laws/PerInstr.lean ====
section
/-! SUPPORT. Statements for all instructions, one lemma per constructor. -/

namespace Sys2Proof

/-- The opcode of an encoded word is the one encoded (30_encoding.md R51). -/
theorem opcode_codec (op : Opcode) (a : Addr) : opcode (codec op a) = op := by
  apply BitVec.eq_of_toNat_eq
  rw [toNat_opcode, toNat_codec]
  omega

/-- The address field of an encoded word is the one encoded (30_encoding.md R51). -/
theorem addr_codec (op : Opcode) (a : Addr) : addr (codec op a) = a := by
  apply BitVec.eq_of_toNat_eq
  rw [toNat_addr, toNat_codec]
  omega

end Sys2Proof

namespace Sys2Proof.Laws.Registered

/-- An instruction's word carries its opcode and its address field, and the default table has a handler for that opcode
(30_encoding.md R51, R56). -/
def Statement (i : Instr) : Prop :=
  opcode (encode i) = i.opcode ∧ addr (encode i) = i.addressField ∧
    (Config.defaultTable.lookup i.opcode).isSome = true

theorem load (x : Addr) : Statement (.load x) := ⟨opcode_codec _ _, addr_codec _ _, rfl⟩
theorem store (x : Addr) : Statement (.store x) := ⟨opcode_codec _ _, addr_codec _ _, rfl⟩
theorem add (x : Addr) : Statement (.add x) := ⟨opcode_codec _ _, addr_codec _ _, rfl⟩
theorem subt (x : Addr) : Statement (.subt x) := ⟨opcode_codec _ _, addr_codec _ _, rfl⟩
theorem input (ignored : Addr) : Statement (.input ignored) := ⟨opcode_codec _ _, addr_codec _ _, rfl⟩
theorem output (ignored : Addr) : Statement (.output ignored) := ⟨opcode_codec _ _, addr_codec _ _, rfl⟩
theorem halt (ignored : Addr) : Statement (.halt ignored) := ⟨opcode_codec _ _, addr_codec _ _, rfl⟩
theorem skipcond (c : SkipCond) (ignored : BitVec 10) : Statement (.skipcond c ignored) :=
  ⟨opcode_codec _ _, addr_codec _ _, rfl⟩
theorem jump (x : Addr) : Statement (.jump x) := ⟨opcode_codec _ _, addr_codec _ _, rfl⟩

end Sys2Proof.Laws.Registered
end

