-- ==== Sys2Proof/Laws/Step.lean ====
section
/-! SUPPORT. What Execute, a cycle and a step can do, said once. -/

namespace Sys2Proof.Machine

/-- Execute with the default table (40_fde_cycle.md R83). -/
theorem execute_eq (before s : State) :
    execute before s =
      match decodeWord s.ir with
      | .ok i => if holds i s then .next before else exec i s
      | .error _ => .fault (.invalidInstruction (opcode s.ir) s) := rfl

/-- A cycle with any `EXT` is its fetch fault, or Execute on what Fetch and Decode left. -/
theorem cycleWith_eq (ext : Extension) (s : State) :
    cycleWith ext s =
      if s.backed s.pc then executeWith ext s (afterDecode s)
      else .fault (.addressOutOfRange s.pc.toNat { s with mar := s.pc }) := by
  rw [cycleWith, fetch_eq]
  split
  · rw [andThen_next, decodeStage_eq]
    rfl
  · rfl

/-- A cycle in an executing state is its fetch fault, or Execute on what Fetch and Decode left. -/
theorem cycle_eq (s : State) :
    cycle s =
      if s.backed s.pc then execute s (afterDecode s)
      else .fault (.addressOutOfRange s.pc.toNat { s with mar := s.pc }) :=
  cycleWith_eq [] s

theorem step_executing {s : State} (h : s.execState = .executing) : step s = cycle s := by
  simp only [step, h]

theorem step_halted {s : State} (h : s.execState = .halted) : step s = .refused .notExecuting := by
  simp only [step, h]

/-- No handler of the default table answers a refusal. -/
theorem exec_ne_refused (i : Instr) (s : State) (r : Refusal) : exec i s ≠ .refused r := by
  cases i with
  | load x => simp only [exec, execLoad, readOperand_eq]; split <;> simp
  | store x => simp only [exec, execStore, writeOperand_eq]; split <;> simp
  | add x => simp only [exec, execAdd, readOperand_eq]; split <;> simp
  | subt x => simp only [exec, execSubt, readOperand_eq]; split <;> simp
  | input g => simp only [exec, execInput]; split <;> simp
  | output g => simp [exec, execOutput]
  | halt g => simp [exec, execHalt]
  | skipcond c g => simp [exec, execSkipcond]
  | jump x => simp [exec, execJump]

/-- A handler's next state, said once: which fields each instruction writes and with what. -/
theorem exec_next_cases {i : Instr} {s t : State} (h : exec i s = .next t) :
    (∃ x v, (i = .load x ∧ v = s.word x ∨ i = .add x ∧ v = add16 s.ac (s.word x) ∨
        i = .subt x ∧ v = sub16 s.ac (s.word x)) ∧ s.backed x ∧
        t = { s with mar := x, mbr := s.word x, ac := v }) ∨
    (∃ x, i = .store x ∧ s.backed x ∧
        t = { s with mar := x, mbr := s.ac, mem := s.mem.writeWord x.toNat s.ac }) ∨
    (∃ g w rest, i = .input g ∧ s.inp = w :: rest ∧ t = { s with inReg := w, ac := w, inp := rest }) ∨
    (∃ g, i = .input g ∧ s.inp = [] ∧ t = s) ∨
    (∃ g, i = .output g ∧ t = { s with outReg := s.ac, out := s.out ++ [s.ac] }) ∨
    (∃ g, i = .halt g ∧ t = { s with execState := .halted }) ∨
    (∃ c g, i = .skipcond c g ∧ t = { s with pc := if skips c s.ac then inc12 s.pc else s.pc }) ∨
    (∃ x, i = .jump x ∧ t = { s with pc := x }) := by
  cases i with
  | load x =>
    simp only [exec, execLoad, readOperand_eq] at h
    split at h
    · rename_i hb
      exact .inl ⟨x, _, .inl ⟨rfl, rfl⟩, hb, by injection h with h; exact h.symm⟩
    · simp at h
  | add x =>
    simp only [exec, execAdd, readOperand_eq] at h
    split at h
    · rename_i hb
      exact .inl ⟨x, _, .inr (.inl ⟨rfl, rfl⟩), hb, by injection h with h; exact h.symm⟩
    · simp at h
  | subt x =>
    simp only [exec, execSubt, readOperand_eq] at h
    split at h
    · rename_i hb
      exact .inl ⟨x, _, .inr (.inr ⟨rfl, rfl⟩), hb, by injection h with h; exact h.symm⟩
    · simp at h
  | store x =>
    simp only [exec, execStore, writeOperand_eq] at h
    split at h
    · rename_i hb
      exact .inr (.inl ⟨x, rfl, hb, by injection h with h; exact h.symm⟩)
    · simp at h
  | input g =>
    simp only [exec, execInput, hostInput] at h
    cases hi : s.inp with
    | nil =>
      simp only [hi] at h
      exact .inr (.inr (.inr (.inl ⟨g, rfl, rfl, by injection h with h; exact h.symm⟩)))
    | cons w rest =>
      simp only [hi] at h
      exact .inr (.inr (.inl ⟨g, w, rest, rfl, rfl, by injection h with h; exact h.symm⟩))
  | output g =>
    exact .inr (.inr (.inr (.inr (.inl ⟨g, rfl, by injection h with h; exact h.symm⟩))))
  | halt g =>
    exact .inr (.inr (.inr (.inr (.inr (.inl ⟨g, rfl, by injection h with h; exact h.symm⟩)))))
  | skipcond c g =>
    refine .inr (.inr (.inr (.inr (.inr (.inr (.inl ⟨c, g, rfl, ?_⟩))))))
    simp only [exec, execSkipcond] at h
    injection h with h
    subst h
    split <;> rfl
  | jump x =>
    exact .inr (.inr (.inr (.inr (.inr (.inr (.inr ⟨x, rfl, by injection h with h; exact h.symm⟩))))))

/-- A handler's fault, said once: an address with no word, with what the handler wrote before it
(60_exceptions.md R149). -/
theorem exec_fault_cases {i : Instr} {s : State} {r : Fault} (h : exec i s = .fault r) :
    ∃ x, ¬s.backed x ∧
      ((i = .load x ∨ i = .add x ∨ i = .subt x) ∧ r = .addressOutOfRange x.toNat { s with mar := x } ∨
        i = .store x ∧ r = .addressOutOfRange x.toNat { s with mar := x, mbr := s.ac }) := by
  cases i with
  | load x =>
    simp only [exec, execLoad, readOperand_eq] at h
    split at h
    · simp at h
    · rename_i hb
      exact ⟨x, hb, .inl ⟨.inl rfl, by injection h with h; exact h.symm⟩⟩
  | add x =>
    simp only [exec, execAdd, readOperand_eq] at h
    split at h
    · simp at h
    · rename_i hb
      exact ⟨x, hb, .inl ⟨.inr (.inl rfl), by injection h with h; exact h.symm⟩⟩
  | subt x =>
    simp only [exec, execSubt, readOperand_eq] at h
    split at h
    · simp at h
    · rename_i hb
      exact ⟨x, hb, .inl ⟨.inr (.inr rfl), by injection h with h; exact h.symm⟩⟩
  | store x =>
    simp only [exec, execStore, writeOperand_eq] at h
    split at h
    · simp at h
    · rename_i hb
      exact ⟨x, hb, .inr ⟨rfl, by injection h with h; exact h.symm⟩⟩
  | input g =>
    simp only [exec, execInput] at h
    split at h <;> simp at h
  | output g => simp [exec, execOutput] at h
  | halt g => simp [exec, execHalt] at h
  | skipcond c g => simp [exec, execSkipcond] at h
  | jump x => simp [exec, execJump] at h

/-- A step's next state, said once: a hold, or the handler of the fetched instruction. -/
theorem step_next_cases {s t : State} (h : step s = .next t) :
    s.execState = .executing ∧ s.backed s.pc ∧ ∃ i, decodeWord (s.word s.pc) = .ok i ∧
      (holds i s = true ∧ t = s ∨ holds i s = false ∧ exec i (afterDecode s) = .next t) := by
  cases he : s.execState with
  | halted => simp [step_halted he] at h
  | executing =>
    rw [step_executing he, cycle_eq] at h
    split at h
    · rename_i hb
      refine ⟨rfl, hb, ?_⟩
      have hir : (afterDecode s).ir = s.word s.pc := rfl
      simp only [execute_eq, hir] at h
      split at h
      · rename_i i hi
        have hh : holds i (afterDecode s) = holds i s := by cases i <;> rfl
        refine ⟨i, hi, ?_⟩
        rw [hh] at h
        split at h
        · rename_i hold
          exact .inl ⟨hold, by injection h with h; exact h.symm⟩
        · rename_i hold
          exact .inr ⟨by simpa using hold, h⟩
      · simp at h
    · simp at h

/-- A step's fault, said once: in Fetch, at the dispatch, or in the handler (60_exceptions.md R150). -/
theorem step_fault_cases {s : State} {r : Fault} (h : step s = .fault r) :
    s.execState = .executing ∧
      (¬s.backed s.pc ∧ r = .addressOutOfRange s.pc.toNat { s with mar := s.pc } ∨
        s.backed s.pc ∧
          ((∃ e, decodeWord (s.word s.pc) = .error e ∧
              r = .invalidInstruction (opcode (s.word s.pc)) (afterDecode s)) ∨
            ∃ i, decodeWord (s.word s.pc) = .ok i ∧ exec i (afterDecode s) = .fault r)) := by
  cases he : s.execState with
  | halted => simp [step_halted he] at h
  | executing =>
    rw [step_executing he, cycle_eq] at h
    refine ⟨rfl, ?_⟩
    split at h
    · rename_i hb
      refine .inr ⟨hb, ?_⟩
      have hir : (afterDecode s).ir = s.word s.pc := rfl
      simp only [execute_eq, hir] at h
      split at h
      · rename_i i hi
        split at h
        · simp at h
        · exact .inr ⟨i, hi, h⟩
      · rename_i e hd
        exact .inl ⟨e, hd, by injection h with h; exact h.symm⟩
    · rename_i hb
      exact .inl ⟨hb, by injection h with h; rw [← he]; exact h.symm⟩

end Sys2Proof.Machine
end

