-- ==== Sys2Proof/Laws/Run.lean ====
section
/-! SUPPORT. What a step of a run on `IN` can do, said once: the draw of a word, and the machine's step after it. -/

namespace Sys2Proof.Machine

theorem State.awaitsInput_iff (s : State) :
    s.awaitsInput = true ↔ s.execState = .executing ∧ s.backed s.pc ∧
      ∃ g, decodeWord (s.word s.pc) = .ok (.input g) ∧ s.inp = [] := by
  rw [awaitsInput, Bool.and_eq_true, decide_eq_true_iff, and_assoc]
  refine and_congr_right fun _ => and_congr_right fun _ => ?_
  cases decodeWord (s.word s.pc) with
  | error e => simp
  | ok i => cases i <;> simp [holds]

/-- A draw, said once: nothing is drawn, or an INPUT that would hold is given the next word of `IN`. -/
theorem Run.fed_cases (input : InputSequence) (r : Run) :
    r.fed input = r ∧ (r.state.awaitsInput = true → input.wordAt r.drawn = none) ∨
      ∃ w, r.state.awaitsInput = true ∧ input.wordAt r.drawn = some w ∧
        r.fed input = { state := r.state.supplyInput w, drawn := r.drawn + 1 } := by
  cases ha : r.state.awaitsInput with
  | false => exact .inl ⟨by simp [Run.fed, ha], by simp⟩
  | true =>
    cases hw : input.wordAt r.drawn with
    | none => exact .inl ⟨by simp [Run.fed, ha, hw], fun _ => rfl⟩
    | some w => exact .inr ⟨w, rfl, rfl, by simp [Run.fed, ha, hw]⟩

/-- A handler that runs to its end does the same with one more input word at hand, unless it would have held. -/
theorem exec_supplyInput {i : Instr} {s t : State} (w : Word) (hh : holds i s = false) (h : exec i s = .next t) :
    exec i (s.supplyInput w) = .next (t.supplyInput w) := by
  rcases exec_next_cases h with ⟨x, v, hi, hb, rfl⟩ | ⟨x, rfl, hb, rfl⟩ | ⟨g, v, rest, rfl, hs, rfl⟩ | ⟨g, rfl, hs, rfl⟩ |
    ⟨g, rfl, rfl⟩ | ⟨g, rfl, rfl⟩ | ⟨c, g, rfl, rfl⟩ | ⟨x, rfl, rfl⟩
  · have hb' : (s.supplyInput w).backed x := hb
    rcases hi with ⟨rfl, rfl⟩ | ⟨rfl, rfl⟩ | ⟨rfl, rfl⟩ <;>
      simp only [exec, execLoad, execAdd, execSubt, readOperand_eq, if_pos hb'] <;> rfl
  · have hb' : (s.supplyInput w).backed x := hb
    simp only [exec, execStore, writeOperand_eq]
    rw [if_pos hb']
    rfl
  · simp only [exec, execInput, hostInput, State.supplyInput, State.setInp, hs, List.cons_append]
    rfl
  · simp [holds, hs] at hh
  · rfl
  · rfl
  · simp only [exec, execSkipcond] at h ⊢
    show Host.Outcome.next (if skips c s.ac then _ else _) = _
    split <;> rfl
  · rfl

/-- A step that does not hold goes the same with one more input word at hand (43_io.md R123). -/
theorem step_supplyInput {s t : State} (w : Word) (ha : s.awaitsInput = false) (h : step s = .next t) :
    step (s.supplyInput w) = .next (t.supplyInput w) := by
  obtain ⟨he, hb, i, hi, hc⟩ := step_next_cases h
  have hh : holds i s = false := by simpa [State.awaitsInput, he, hb, hi] using ha
  rcases hc with ⟨hc, -⟩ | ⟨-, hx⟩
  · simp [hh] at hc
  · have hs : holds i (afterDecode (s.supplyInput w)) = false := by cases i <;> simp [holds, afterDecode, State.supplyInput]
    have hd : holds i (afterDecode s) = false := by rw [← hh]; cases i <;> rfl
    have hi' : decodeWord (afterDecode (s.supplyInput w)).ir = .ok i := hi
    rw [step_executing (show (s.supplyInput w).execState = .executing from he), cycle_eq,
      if_pos (show (s.supplyInput w).backed (s.supplyInput w).pc from hb), execute_eq, hi']
    simp only [hs, Bool.false_eq_true, if_false]
    exact exec_supplyInput w hd hx

@[simp] theorem InputSequence.wordAt_nil (k : Nat) : (InputSequence.finite []).wordAt k = none := rfl

@[simp] theorem Run.fed_nil (r : Run) : r.fed (.finite []) = r := by
  rcases Run.fed_cases (.finite []) r with h | ⟨w, -, h, -⟩
  · exact h.1
  · cases h

@[simp] theorem Run.fed_execState (input : InputSequence) (r : Run) :
    (r.fed input).state.execState = r.state.execState := by
  rcases Run.fed_cases input r with h | ⟨w, -, -, h⟩
  · rw [h.1]
  · rw [h]; rfl

/-- A run's next state, said once: the machine's step after the draw. -/
theorem stepOn_next_iff {input : InputSequence} {r u : Run} :
    stepOn input r = .next u ↔ step (r.fed input).state = .next u.state ∧ u.drawn = (r.fed input).drawn := by
  unfold stepOn
  cases step (r.fed input).state with
  | next t => cases u; simp [eq_comm]
  | fault q => simp
  | refused q => simp

theorem stepOn_fault_iff {input : InputSequence} {r : Run} {q : Fault} :
    stepOn input r = .fault q ↔ step (r.fed input).state = .fault q := by
  unfold stepOn
  cases step (r.fed input).state <;> simp

theorem stepOn_halted {input : InputSequence} {r : Run} (h : r.state.execState = .halted) :
    stepOn input r = .refused .notExecuting := by
  rw [stepOn, step_halted ((Run.fed_execState input r).trans h)]

@[simp] theorem InputSequence.between_self (input : InputSequence) (k : Nat) : input.between k k = [] := by
  simp [between]

theorem InputSequence.between_succ {input : InputSequence} {k j : Nat} {w : Word} (hk : k ≤ j)
    (hw : input.wordAt j = some w) : input.between k (j + 1) = input.between k j ++ [w] := by
  rw [between, between, show j + 1 - k = (j - k) + 1 by omega, List.range'_concat, List.filterMap_append]
  simp [show k + (j - k) = j by omega, hw]

end Sys2Proof.Machine
end

