-- ==== Sys2Proof/Tests/Slice0.lean ====
section
/-! SUPPORT. Small tests whose expected results are the spec's own vectors (95_test_vectors.md), and for every statement
with hypotheses a concrete case that meets them. -/

namespace Sys2Proof.Tests

open Sys2Proof Sys2Proof.Machine

/-- An executing state with these words in memory and `AC`, `PC` as given, else as after reset. -/
def st (ac : Word) (pc : Addr) (cells : List (Nat × Word)) : State :=
  { State.reset with ac := ac, pc := pc, mem := cells.foldl (fun m c => Memory.writeWord m c.1 c.2) [] }

/-- `AC`, `MBR`, `MAR` and `PC` after one step, if it answers a next state. -/
def after (s : State) : Option (Word × Word × Addr × Addr) :=
  (nextState (step s)).map fun t => (t.ac, t.mbr, t.mar, t.pc)

/-- `PC` after one step. -/
def pcAfter (s : State) : Option Addr := (nextState (step s)).map State.pc

/-- `PC`, `MAR`, `IR` and `MBR` in the state a step's fault leaves. -/
def leftBy (s : State) : Option (Addr × Addr × Word × Word) :=
  (faultOf (step s)).map fun r => (r.left.pc, r.left.mar, r.left.ir, r.left.mbr)

/-! ### WellFormed: the one check that refuses, and the one that does not -/

theorem test_assembler_form_refuses_input : Instr.assemblerForm (.input 0xFFF#12) = false := by decide
theorem test_assembler_form_refuses_output : Instr.assemblerForm (.output 0x123#12) = false := by decide
theorem test_assembler_form_refuses_halt : Instr.assemblerForm (.halt 0xABC#12) = false := by decide
theorem test_assembler_form_accepts_halt : Instr.assemblerForm (.halt 0x000#12) = true := by decide
theorem test_reserved_condition_is_wellFormed : Instr.wellFormed (.skipcond .reserved 0x3FF#10) = true := by decide

/-! ### Decoding: words written out bit by bit from 30_encoding.md R53, R56 -/

theorem test_decode_load : decodeTableWord 16 0b0001000000000110 = some (.load 0x006#12) := by decide
theorem test_decode_store : decodeTableWord 16 0b0010111111111110 = some (.store 0xFFE#12) := by decide
theorem test_decode_add : decodeTableWord 16 0b0011000000000000 = some (.add 0x000#12) := by decide
theorem test_decode_subt : decodeTableWord 16 0b0100101010111100 = some (.subt 0xABC#12) := by decide
theorem test_decode_input : decodeTableWord 16 0b0101111111111111 = some (.input 0xFFF#12) := by decide
theorem test_decode_output : decodeTableWord 16 0b0110000100100011 = some (.output 0x123#12) := by decide
theorem test_decode_halt : decodeTableWord 16 0b0111101010111100 = some (.halt 0xABC#12) := by decide
theorem test_decode_skip_negative : decodeTableWord 16 0b1000000000000001 = some (.skipcond .negative 0x001#10) := by decide
theorem test_decode_skip_zero : decodeTableWord 16 0b1000011111111111 = some (.skipcond .zero 0x3FF#10) := by decide
theorem test_decode_skip_positive : decodeTableWord 16 0b1000101111111111 = some (.skipcond .positive 0x3FF#10) := by decide
theorem test_decode_skip_reserved : decodeTableWord 16 0b1000110000000000 = some (.skipcond .reserved 0x000#10) := by decide
theorem test_decode_jump : decodeTableWord 16 0b1001111111111110 = some (.jump 0xFFE#12) := by decide
/-- V-C14, V-C16, V-C18. -/
theorem test_decode_unregistered :
    decodeTableWord 16 0x0000 = none ∧ decodeTableWord 16 0xA000 = none ∧ decodeTableWord 16 0xFFFF = none := by decide
theorem test_decode_truncated : decodeBytes [0x10#8] = .error .truncated := rfl
theorem test_fetch_word_runs_first : pcAfter (State.reset.withFetchWord 16 0x9ABC) = some 0xABC#12 := by decide

/-! ### One step of each instruction -/

/-- V-LS1. -/
theorem test_load : after (st 0x1111#16 0x020#12 [(0x020, 0x1006#16), (0x006, 0x0007#16)]) =
    some (0x0007#16, 0x0007#16, 0x006#12, 0x021#12) := by decide
/-- V-LS3: a LOAD of its own encoding. -/
theorem test_load_itself : after (st 0x1111#16 0x020#12 [(0x020, 0x1020#16)]) =
    some (0x1020#16, 0x1020#16, 0x020#12, 0x021#12) := by decide
/-- V-LS4. -/
theorem test_store : ((nextState (step (st 0x0007#16 0x020#12 [(0x020, 0x2006#16), (0x006, 0xFFFF#16)]))).map
    fun t => (t.word 0x006#12, t.mbr, t.ac)) = some (0x0007#16, 0x0007#16, 0x0007#16) := by decide
/-- V-LS7: a STORE to the next instruction is what the next cycle runs. -/
theorem test_store_next : ((nextState (step (st 0x7000#16 0x020#12 [(0x020, 0x2021#16)]))).map
    fun t => (nextState (step t)).map State.execState) = some (some .halted) := by decide
/-- V-AR3: the carry out is lost. -/
theorem test_add_wraps : after (st 0xFFFF#16 0x020#12 [(0x020, 0x3006#16), (0x006, 0x0001#16)]) =
    some (0x0000#16, 0x0001#16, 0x006#12, 0x021#12) := by decide
/-- V-AR4: signed overflow wraps. -/
theorem test_add_signed_wrap : after (st 0x7FFF#16 0x020#12 [(0x020, 0x3006#16), (0x006, 0x0001#16)]) =
    some (0x8000#16, 0x0001#16, 0x006#12, 0x021#12) := by decide
/-- V-AR7: `0 - 1`. -/
theorem test_subt_wraps : after (st 0x0000#16 0x020#12 [(0x020, 0x4006#16), (0x006, 0x0001#16)]) =
    some (0xFFFF#16, 0x0001#16, 0x006#12, 0x021#12) := by decide
/-- V-AR6: `AC` minus memory, not memory minus `AC`. -/
theorem test_subt_order : after (st 0x1234#16 0x020#12 [(0x020, 0x4006#16), (0x006, 0xFFFF#16)]) =
    some (0x1235#16, 0xFFFF#16, 0x006#12, 0x021#12) := by decide
/-- V-IO1: one word of two is taken. -/
theorem test_input : ((nextState (step { st 0x1111#16 0#12 [(0, 0x5000#16)] with inp := [0x0007#16, 0x0008#16] })).map
    fun t => (t.ac, t.inReg, t.inp, t.mar)) = some (0x0007#16, 0x0007#16, [0x0008#16], 0x000#12) := by decide
/-- V-IO3: no word, nothing changes. -/
theorem test_input_holds : nextState (step (st 0x1111#16 0#12 [(0, 0x5000#16)])) =
    some (st 0x1111#16 0#12 [(0, 0x5000#16)]) := by decide
/-- V-IO2. -/
theorem test_output : ((nextState (step (st 0x000E#16 0x004#12 [(4, 0x6000#16)]))).map
    fun t => (t.outReg, t.out, t.ac)) = some (0x000E#16, [0x000E#16], 0x000E#16) := by decide
/-- V-IO5: an equal value is output again. -/
theorem test_output_equal_value : ((nextState (step
    { st 0#16 0#12 [(0, 0x6000#16)] with out := [0#16], outReg := 0#16 })).map State.out) =
      some [0#16, 0#16] := by decide
/-- V-CT1. -/
theorem test_halt : ((nextState (step (st 0x000E#16 0x005#12 [(5, 0x7000#16)]))).map
    fun t => (t.execState, t.pc, t.ir, t.ac)) = some (.halted, 0x006#12, 0x7000#16, 0x000E#16) := by decide
/-- V-CT2: HALT in the last word. -/
theorem test_halt_at_top : pcAfter (st 0#16 0xFFE#12 [(0xFFE, 0x7000#16)]) = some 0xFFF#12 := by decide
/-- S3, V-CT3 to V-CT6, V-CT9: the outcome table of SKIPCOND. -/
theorem test_skipcond_table :
    pcAfter (st 0xFFFF#16 0x010#12 [(0x010, 0x8000#16)]) = some 0x012#12 ∧
    pcAfter (st 0x0000#16 0x010#12 [(0x010, 0x8400#16)]) = some 0x012#12 ∧
    pcAfter (st 0x0001#16 0x010#12 [(0x010, 0x8800#16)]) = some 0x012#12 ∧
    pcAfter (st 0x8000#16 0x010#12 [(0x010, 0x8800#16)]) = some 0x011#12 ∧
    pcAfter (st 0x7FFF#16 0x010#12 [(0x010, 0x8000#16)]) = some 0x011#12 ∧
    pcAfter (st 0x0000#16 0x010#12 [(0x010, 0x8C00#16)]) = some 0x011#12 := by decide
/-- V-CT7: the skip wraps over `0xFFF`. -/
theorem test_skipcond_wraps : pcAfter (st 0#16 0xFFE#12 [(0xFFE, 0x8400#16)]) = some 0x000#12 := by decide
/-- V-CT11. -/
theorem test_jump : after (st 0x1234#16 0x004#12 [(4, 0x9ABC#16)]) =
    some (0x1234#16, 0x0000#16, 0xABC#12, 0xABC#12) := by decide
/-- V-CT13: no fault in the JUMP itself. -/
theorem test_jump_to_top : pcAfter (st 0#16 0x004#12 [(4, 0x9FFF#16)]) = some 0xFFF#12 := by decide

/-! ### Faults and load -/

/-- V-F6: an illegal word whose field is `0xFFF` is no bounds error; Fetch and Decode stand. -/
theorem test_invalid_instruction : leftBy (st 0#16 0#12 [(0, 0xAFFF#16)]) =
    some (0x001#12, 0xFFF#12, 0xAFFF#16, 0x0000#16) := by decide
/-- V-F3: the Fetch fault keeps `PC` and `IR`. -/
theorem test_fetch_fault : leftBy { st 0#16 0xFFF#12 [] with ir := 0x9FFF#16 } =
    some (0xFFF#12, 0xFFF#12, 0x9FFF#16, 0x0000#16) := by decide
/-- V-F5: STORE has copied `AC` to `MBR` when it faults. -/
theorem test_store_fault : leftBy (st 0x1234#16 0x001#12 [(1, 0x2FFF#16)]) =
    some (0x002#12, 0xFFF#12, 0x2FFF#16, 0x1234#16) := by decide
/-- V-FD4: with 4096 words the Fetch at `0xFFF` succeeds and `PC` wraps. -/
theorem test_fetch_with_4096_words :
    pcAfter { st 0#16 0xFFF#12 [(0xFFF, 0x7000#16)] with memSize := .w4096 } = some 0x000#12 := by decide
/-- S2: load of the bytes `70 00 12 34` from a Halted state. -/
theorem test_load_program :
    (State.load [0x70#8, 0x00#8, 0x12#8, 0x34#8] { inputs := [], inReg := 5#16, outReg := 6#16 }
      { st 0x1234#16 0x123#12 [(7, 7#16)] with execState := .halted }).toOption.map
        (fun t => (t.ac, t.pc, t.execState, t.word 0#12, t.word 1#12, t.word 7#12)) =
      some (0#16, 0#12, .executing, 0x7000#16, 0x1234#16, 0#16) := by decide
/-- P7 begins so, and the driving loop ends a run at its HALT. -/
theorem test_drive_ends : (match drive (.finite []) 3
      (Run.start (st 0#16 0#12 [(0, 0x8400#16), (1, 0x0000#16), (2, 0x7000#16)])) with
    | .ended t => some t.state.pc
    | .faulted _ => none
    | .running _ => none) = some 0x003#12 := by decide
/-- Two INPUTs on an infinite `IN` read two successive words of it (43_io.md R120), then HALT. -/
theorem test_drive_draws : (match drive (.infinite fun k => BitVec.ofNat 16 (k + 7)) 3
      (Run.start (st 0#16 0#12 [(0, 0x5000#16), (1, 0x5000#16), (2, 0x7000#16)])) with
    | .ended t => some (t.state.ac, t.drawn)
    | .faulted _ => none
    | .running _ => none) = some (0x0008#16, 2) := by decide
/-- S7: opcode 1 is registered already. -/
theorem test_duplicate_opcode : Config.defaultTable.register 1#4 .jump = .error (.duplicateOpcode 1#4) := rfl

/-! ### The assembler -/

/-- S4: a reference before its declaration resolves. -/
theorem test_assemble_forward_reference :
    (Assembler.assemble (['L', 'O', 'A', 'D', ' ', 'A', '\n', 'H', 'A', 'L', 'T', '\n',
        'A', ',', ' ', 'D', 'E', 'C', ',', ' ', '5'])).toOption.map
      (fun m => (Assembler.Image.word m 0, Assembler.Image.word m 1, Assembler.Image.word m 2)) =
    some (0x1002#16, 0x7000#16, 0x0005#16) := by decide
/-- S6: `ORG 5` leaves the slots below Empty. -/
theorem test_assemble_origin :
    (Assembler.assemble ['O', 'R', 'G', ' ', '5', '\n', 'h', 'a', 'l', 't']).toOption.map
      (fun m => (Assembler.Image.word m 4, Assembler.Image.word m 5)) = some (0x0000#16, 0x7000#16) := by decide
/-- 30_encoding.md R67: `DEC, -1` is 0xFFFF, `HEX, 1F` is 0x001F. -/
theorem test_assemble_values :
    Assembler.declaredWord ['D', 'E', 'C'] ['-', '1'] = .ok 0xFFFF#16 ∧
      Assembler.declaredWord ['H', 'E', 'X'] ['1', 'F'] = .ok 0x001F#16 := ⟨rfl, rfl⟩
/-- 91_not_in_source.md N12: `X, DEC,0` and `X,DEC, 0` are left open; 30_encoding.md R67: `X, OCT, 0` is malformed. -/
theorem test_assemble_comma_spacing :
    Assembler.assembleLine [['X', ','], ['D', 'E', 'C', ',', '0']] Assembler.Pass.start =
      .error (.leftOpen ['D', 'E', 'C', ',', '0']) ∧
    Assembler.assembleLine [['X', ',', 'D', 'E', 'C', ','], ['0']] Assembler.Pass.start =
      .error (.leftOpen ['X', ',', 'D', 'E', 'C', ',']) ∧
    Assembler.assembleLine [['X', ','], ['O', 'C', 'T', ','], ['0']] Assembler.Pass.start =
      .error (.malformedDeclaration ['O', 'C', 'T']) := ⟨rfl, rfl, rfl⟩
/-- 30_encoding.md R64: `JUMP A00` is a name, never declared here. -/
theorem test_assemble_letter_operand :
    Assembler.assemble ['J', 'U', 'M', 'P', ' ', 'A', '0', '0'] = .error (.undefinedSymbol ['A', '0', '0']) := by rfl
/-- 30_encoding.md R71: `001: 2006  STORE 006`. -/
theorem test_listing : Assembler.listing 0x001#12 0x2006#16 =
    ['0', '0', '1', ':', ' ', '2', '0', '0', '6', ' ', ' ', 'S', 'T', 'O', 'R', 'E', ' ', '0', '0', '6'] := by decide

/-! ### Witnesses: the hypotheses of each statement are met together -/

theorem witness_EncodedInstructionDecodesBack : Instr.wellFormed (.skipcond .reserved 0x3FF#10) = true := rfl
theorem witness_DecodedWordEncodesBack : decodeWord 0x87FF#16 = .ok (.skipcond .zero 0x3FF#10) := rfl
theorem witness_UnregisteredOpcodesRejected :
    ((opcode 0x0FFF#16).toNat = 0 ∨ 10 ≤ (opcode 0x0FFF#16).toNat) ∧
    ((opcode 0xA000#16).toNat = 0 ∨ 10 ≤ (opcode 0xA000#16).toNat) ∧
    ¬((opcode 0x1000#16).toNat = 0 ∨ 10 ≤ (opcode 0x1000#16).toNat) ∧
    ¬((opcode 0x9FFF#16).toNat = 0 ∨ 10 ≤ (opcode 0x9FFF#16).toNat) := by decide
theorem witness_IgnoredBitsDoNotMatter :
    decodeWord 0x8400#16 = .ok (.skipcond .zero 0x000#10) ∧ opcode 0x87FF#16 = opcode 0x8400#16 ∧
    (opcode 0x8400#16 = 8#4 ∧ BitVec.extractLsb' 10 2 0x87FF#16 = BitVec.extractLsb' 10 2 0x8400#16) ∧
    decodeWord 0x5000#16 = .ok (.input 0x000#12) ∧ opcode 0x5FFF#16 = opcode 0x5000#16 := ⟨rfl, by decide, by decide, rfl, by decide⟩
/-- Both clauses of LOAD, ADD and SUBT, and those of STORE, at the top of either memory size. -/
theorem witness_backed_and_unbacked :
    State.reset.backed 0xFFE#12 ∧ ¬State.reset.backed 0xFFF#12 ∧
      ({ State.reset with memSize := .w4096 } : State).backed 0xFFF#12 := by decide
theorem witness_LoadCopiesWordToAc : State.reset.backed 0x000#12 ∧ ¬State.reset.backed 0xFFF#12 := by decide
theorem witness_StoreCopiesAcToWord : State.reset.backed 0xFFE#12 := by decide
theorem witness_StoreToUnbackedAddressFaults : ¬State.reset.backed 0xFFF#12 := by decide
theorem witness_AddWrapsModulo65536 : State.reset.backed 0xFFE#12 ∧ ¬State.reset.backed 0xFFF#12 := by decide
theorem witness_SubtWrapsModulo65536 : State.reset.backed 0xFFE#12 ∧ ¬State.reset.backed 0xFFF#12 := by decide
theorem witness_SubtUndoesAdd : (st 0x8000#16 0#12 [(0xFFE, 1#16)]).backed 0xFFE#12 := by decide
theorem witness_InputTakesOneWord : ({ State.reset with inp := [0xAAAA#16, 0x5555#16] } : State).inp =
    0xAAAA#16 :: [0x5555#16] := rfl
theorem witness_ReadingInstructionsFrame :
    (∃ t, exec (.load 0x006#12) State.reset = .next t) ∧ (∃ t, exec (.add 0x006#12) State.reset = .next t) ∧
      ∃ t, exec (.subt 0xFFE#12) State.reset = .next t := ⟨⟨_, rfl⟩, ⟨_, rfl⟩, _, rfl⟩
theorem witness_StoreFrame : ∃ t, exec (.store 0xFFE#12) (st 0x1234#16 0#12 []) = .next t := ⟨_, rfl⟩
theorem witness_InputOutputFrame :
    (∃ t, exec (.input 0xFFF#12) { State.reset with inp := [7#16] } = .next t) ∧
      (∃ t, exec (.input 0#12) State.reset = .next t) ∧
      ∃ t, exec (.output 0#12) State.reset = .next t := ⟨⟨_, rfl⟩, ⟨_, rfl⟩, _, rfl⟩
theorem witness_ControlFrame :
    (∃ t, exec (.halt 0#12) State.reset = .next t) ∧ (∃ t, exec (.skipcond .zero 0#10) State.reset = .next t) ∧
      ∃ t, exec (.jump 0xFFF#12) State.reset = .next t := ⟨⟨_, rfl⟩, ⟨_, rfl⟩, _, rfl⟩
theorem witness_StepRunsDecodedInstruction :
    (st 0#16 0xFFE#12 [(0xFFE, 0x9000#16)]).execState = .executing ∧
    (st 0#16 0xFFE#12 [(0xFFE, 0x9000#16)]).backed 0xFFE#12 ∧
    decodeWord ((st 0#16 0xFFE#12 [(0xFFE, 0x9000#16)]).mem.readWord 0xFFE) = .ok (.jump 0x000#12) := ⟨rfl, by decide, rfl⟩
theorem witness_StepMeetsListing : State.reset.execState = .executing := rfl
theorem witness_HeldInputWaitsForWord :
    (st 0#16 0#12 [(0, 0x5FFF#16)]).execState = .executing ∧ (st 0#16 0#12 [(0, 0x5FFF#16)]).backed 0#12 ∧
    decodeWord (st 0#16 0#12 [(0, 0x5FFF#16)]).nextWord = .ok (.input 0xFFF#12) ∧
    (st 0#16 0#12 [(0, 0x5FFF#16)]).inp = [] := ⟨rfl, by decide, rfl, rfl⟩
theorem witness_NoStepWhileHalted : ({ State.reset with execState := .halted } : State).execState = .halted := rfl
/-- Opcodes 10 and 15, and 9 on the other side of the range's edge. -/
theorem witness_InvalidInstructionExactly :
    (∃ u, step (st 0#16 0#12 [(0, 0xA123#16)]) = .fault (.invalidInstruction 0xA#4 u)) ∧
    (∃ u, step (st 0#16 0#12 [(0, 0xFFFF#16)]) = .fault (.invalidInstruction 0xF#4 u)) ∧
    (∃ u, step State.reset = .fault (.invalidInstruction 0x0#4 u)) ∧
    (∃ t, step (st 0#16 0#12 [(0, 0x9FFF#16)]) = .next t) ∧
    State.reset.execState = .executing ∧ State.reset.backed State.reset.pc :=
  ⟨⟨_, rfl⟩, ⟨_, rfl⟩, ⟨_, rfl⟩, ⟨_, rfl⟩, rfl, by decide⟩
/-- The Fetch, opcodes 1 and 4, and opcode 5 beyond them. -/
theorem witness_AddressOutOfRangeExactly :
    (∃ u, step (st 0#16 0xFFF#12 []) = .fault (.addressOutOfRange 0xFFF u)) ∧
    (∃ u, step (st 0#16 0#12 [(0, 0x1FFF#16)]) = .fault (.addressOutOfRange 0xFFF u)) ∧
    (∃ u, step (st 0#16 0#12 [(0, 0x4FFF#16)]) = .fault (.addressOutOfRange 0xFFF u)) ∧
    (∃ t, step { st 0#16 0#12 [(0, 0x5FFF#16)] with inp := [1#16] } = .next t) ∧
    ∃ t, step { st 0#16 0#12 [(0, 0x1FFF#16)] with memSize := .w4096 } = .next t :=
  ⟨⟨_, rfl⟩, ⟨_, rfl⟩, ⟨_, rfl⟩, ⟨_, rfl⟩, _, rfl⟩
theorem witness_FetchFaultKeepsPcAndIr :
    (st 0#16 0xFFF#12 []).execState = .executing ∧ ¬(st 0#16 0xFFF#12 []).backed 0xFFF#12 := by decide
theorem witness_FaultLeavesAcIoAndMemory :
    (∃ r, step (st 7#16 0xFFF#12 []) = .fault r) ∧ (∃ r, step (st 7#16 0#12 []) = .fault r) ∧
    (∃ r, step (st 7#16 0#12 [(0, 0x3FFF#16)]) = .fault r) ∧
    ∃ r, step (st 7#16 0#12 [(0, 0x2FFF#16)]) = .fault r := ⟨⟨_, rfl⟩, ⟨_, rfl⟩, ⟨_, rfl⟩, _, rfl⟩
theorem witness_MemWriteReplacesOneWord :
    ({ State.reset with mar := 0xFFE#12 } : State).backed 0xFFE#12 ∧
    ¬({ State.reset with mar := 0xFFF#12 } : State).backed 0xFFF#12 ∧
    (∃ t, exec (.load 0#12) State.reset = .next t) ∧ ∀ x, Instr.load 0#12 ≠ .store x :=
  ⟨by decide, by decide, ⟨_, rfl⟩, fun x h => by simp at h⟩
theorem witness_HostSetThenGet : State.reset.memSize.words ≤ 4095 ∧ 4094 < State.reset.memSize.words ∧
    (4093 : Nat) ≠ 4094 := by decide
theorem witness_StoredWordIsFetchedNext :
    (st 0x7000#16 0x020#12 [(0x020, 0x2021#16)]).execState = .executing ∧
    (st 0x7000#16 0x020#12 [(0x020, 0x2021#16)]).backed 0x020#12 ∧
    (st 0x7000#16 0x020#12 [(0x020, 0x2021#16)]).backed (inc12 0x020#12) ∧
    (st 0x7000#16 0x020#12 [(0x020, 0x2021#16)]).nextWord = encode (.store (inc12 0x020#12)) := by decide
/-- A STORE cycle that changes a byte of memory. -/
theorem witness_StepWritesAtMostOneWord :
    ∃ t, step (st 0x1234#16 0#12 [(0, 0x2006#16)]) = .next t ∧
      t.mem.readByte 12 ≠ (st 0x1234#16 0#12 [(0, 0x2006#16)]).mem.readByte 12 := ⟨_, rfl, by decide⟩
/-- A held cycle, a completed one, a taken skip and a jump. -/
theorem witness_steps_answer_next :
    (∃ t, step (st 0#16 0#12 [(0, 0x5000#16)]) = .next t) ∧ (∃ t, step (st 0#16 0#12 [(0, 0x6000#16)]) = .next t) ∧
    (∃ t, step (st 0#16 0xFFE#12 [(0xFFE, 0x8400#16)]) = .next t) ∧
    ∃ t, step (st 0#16 0#12 [(0, 0x9FFF#16)]) = .next t := ⟨⟨_, rfl⟩, ⟨_, rfl⟩, ⟨_, rfl⟩, _, rfl⟩
theorem witness_IrAndMarAfterCycle : ∃ t, step (st 0#16 0#12 [(0, 0x7ABC#16)]) = .next t := ⟨_, rfl⟩
theorem witness_PcAfterCycle : ∃ t, step (st 0x8000#16 0xFFE#12 [(0xFFE, 0x8000#16)]) = .next t := ⟨_, rfl⟩
/-- A cycle that changes `AC` and `MBR`. -/
theorem witness_AcAndMbrWriters :
    ∃ t, step (st 1#16 0#12 [(0, 0x3000#16)]) = .next t ∧ t.ac ≠ 1#16 ∧ t.mbr ≠ 0#16 := ⟨_, rfl, by decide, by decide⟩
theorem witness_StateFlagTransitions :
    (∃ t, step (st 0#16 0#12 [(0, 0x7000#16)]) = .next t) ∧ (∃ r, step State.reset = .fault r) ∧
    ∃ t, State.load [0x70#8, 0x00#8] { inputs := [], inReg := 1#16, outReg := 2#16 } State.reset = .ok t :=
  ⟨⟨_, rfl⟩, ⟨_, rfl⟩, _, rfl⟩
theorem witness_OneEventPerInputOrOutput :
    (∃ t, step { st 0#16 0#12 [(0, 0x5000#16)] with inp := [3#16] } = .next t) ∧
    ∃ t, step (st 9#16 0#12 [(0, 0x6000#16)]) = .next t := ⟨⟨_, rfl⟩, _, rfl⟩
/-- An image of one word, and the same image with one zero word after it. -/
theorem witness_LoadReplacesMemory :
    (∃ t, State.load [0x12#8, 0x34#8] { inputs := [], inReg := 0#16, outReg := 0#16 } State.reset = .ok t) ∧
    (∃ u, State.load ([0x12#8, 0x34#8] ++ List.replicate (2 * 1) 0#8) { inputs := [], inReg := 0#16, outReg := 0#16 }
      State.reset = .ok u) ∧ 2 * 0 < [0x12#8, 0x34#8].length ∧ [0x12#8, 0x34#8].length ≤ 2 * 1 :=
  ⟨⟨_, rfl⟩, ⟨_, rfl⟩, by decide, by decide⟩
theorem witness_LoadIgnoresPriorState :
    State.reset.memSize = (st 7#16 5#12 [(3, 3#16)]).memSize ∧ [0x12#8, 0x34#8].length % 2 = 0 ∧
    [0x12#8, 0x34#8].length ≤ 2 * State.reset.memSize.words := by decide
theorem witness_LoadRejectsOversizedImage :
    (List.replicate 8192 0#8).length = 2 * 4096 ∧ State.reset.memSize.words < 4096 ∧
    [1#8, 2#8, 3#8].length < 2 * State.reset.memSize.words ∧ [1#8, 2#8, 3#8].length % 2 = 1 :=
  ⟨List.length_replicate, by decide, by decide, by decide⟩
theorem witness_DuplicateRegistrationRefused :
    Config.defaultTable.lookup 1#4 = some .load ∧ Config.defaultTable.lookup 9#4 = some .jump ∧
    Config.defaultTable.lookup 10#4 = none ∧ (∃ t, Config.defaultTable.register 10#4 .halt = .ok t) ∧
    1 ≤ (9#4 : Opcode).toNat ∧ (9#4 : Opcode).toNat ≤ 9 :=
  ⟨rfl, rfl, rfl, ⟨_, rfl⟩, by decide, by decide⟩
/-- A registered opcode 9, and the free opcode 10 with a handler of its own. -/
theorem witness_ExtensionsKeepDefaultHandlers :
    (st 0#16 0#12 [(0, 0x9000#16)]).backed 0#12 ∧ (opcode (st 0#16 0#12 [(0, 0x9000#16)]).nextWord).toNat = 9 ∧
    (opcode (st 0#16 0#12 [(0, 0xA000#16)]).nextWord).toNat = 10 ∧
    Config.OpcodeTable.lookup ([(0xA#4, execHalt 0#12)] : Extension) 0xA#4 = some (execHalt 0#12) :=
  ⟨by decide, by decide, by decide, rfl⟩
theorem witness_StepKeepsInvariant :
    State.reset.Inv ∧ (st 7#16 0#12 [(0, 0x2006#16)]).Inv ∧ (∃ t, step (st 7#16 0#12 [(0, 0x2006#16)]) = .next t) ∧
    ∃ r, step State.reset = .fault r := ⟨by decide, by decide, ⟨_, rfl⟩, _, rfl⟩
theorem witness_ReachableFromLoadMeetsInvariant :
    ∃ s₀ t, State.load [0x60#8, 0x00#8] { inputs := [], inReg := 1#16, outReg := 2#16 } State.reset = .ok s₀ ∧
      Reaches (.finite []) (Run.start s₀) t ∧ t.state.pc = 0x001#12 := ⟨_, _, rfl, .step (.refl _) rfl, rfl⟩
/-- Two executing states that differ in both hidden registers. -/
theorem witness_IoRegistersAreInvisible :
    ({ State.reset with inReg := 1#16, outReg := 2#16 } : State).hideIo = State.reset.hideIo ∧
    ({ State.reset with inReg := 1#16, outReg := 2#16 } : State) ≠ State.reset := by decide
/-- A word at hand is taken first, then one of an infinite `IN`. -/
theorem witness_InputAndOutputAreSequences :
    ∃ t, Reaches (.infinite fun _ => 7#16)
      (Run.start { st 0#16 0#12 [(0, 0x5000#16), (1, 0x5000#16)] with inp := [3#16] }) t ∧
      t.drawn = 1 ∧ t.state.ac = 7#16 := ⟨_, .step (.step (.refl _) rfl) rfl, rfl, rfl⟩
/-- At an INPUT with no word at hand: `IN` with a word there, `IN` that has ended, an infinite `IN`; and cycles that draw
nothing, an INPUT with a word at hand among them. -/
theorem witness_InputDrawsFromSequence :
    (st 0#16 0#12 [(0, 0x5FFF#16)]).execState = .executing ∧ (st 0#16 0#12 [(0, 0x5FFF#16)]).backed 0#12 ∧
    decodeWord (st 0#16 0#12 [(0, 0x5FFF#16)]).nextWord = .ok (.input 0xFFF#12) ∧
    (st 0#16 0#12 [(0, 0x5FFF#16)]).inp = [] ∧
    (InputSequence.finite [3#16]).wordAt 0 = some 3#16 ∧ (InputSequence.finite [3#16]).wordAt 1 = none ∧
    (InputSequence.infinite fun _ => 7#16).wordAt 1000 = some 7#16 ∧
    (∃ t, step { st 0#16 0#12 [(0, 0x5000#16)] with inp := [3#16] } = .next t) ∧
    opcode (st 0#16 0#12 [(0, 0x6000#16)]).nextWord ≠ 5#4 ∧ ∃ t, step (st 0#16 0#12 [(0, 0x6000#16)]) = .next t :=
  ⟨rfl, by decide, rfl, rfl, rfl, rfl, rfl, ⟨_, rfl⟩, by decide, _, rfl⟩
/-- A run that draws two words of an infinite `IN`. -/
theorem witness_RunIsRunOnDrawnPrefix :
    ∃ t, Reaches (.infinite fun k => BitVec.ofNat 16 k) (Run.start (st 0#16 0#12 [(0, 0x5000#16), (1, 0x5000#16)])) t ∧
      t.drawn = 2 ∧ t.state.ac = 1#16 := ⟨_, .step (.step (.refl _) rfl) rfl, rfl, rfl⟩
/-- A Halted state, a step that halts, one that does not, a fault, and a run of two steps to its HALT. -/
theorem witness_DriveEndsOnlyAtHalt :
    ({ State.reset with execState := .halted } : State).isFinal ∧
    (∃ t, drive (.finite []) 1 (Run.start (st 0#16 0#12 [(0, 0x7000#16)])) = .ended t) ∧
    (∃ q, drive (.finite []) 1 (Run.start State.reset) = .faulted q) ∧
    (∃ t, stepOn (.finite []) (Run.start (st 0#16 0#12 [(0, 0x7000#16)])) = .next t ∧ t.state.isFinal) ∧
    (∃ t, stepOn (.finite []) (Run.start (st 0#16 0#12 [(0, 0x9000#16)])) = .next t ∧ ¬t.state.isFinal) ∧
    (∃ q, stepOn (.finite []) (Run.start State.reset) = .fault q) ∧
    ∃ t, Reaches (.finite [5#16]) (Run.start (st 0#16 0#12 [(0, 0x5000#16), (1, 0x7000#16)])) t ∧ t.state.isFinal :=
  ⟨rfl, ⟨_, rfl⟩, ⟨_, rfl⟩, ⟨_, rfl, rfl⟩, ⟨_, rfl, by decide⟩, ⟨_, rfl⟩, _, .step (.step (.refl _) rfl) rfl, rfl⟩
theorem witness_OperandLineEmitsEncodedWord :
    (Assembler.upper ['j', 'U', 'm', 'p'], (9#4 : Opcode)) ∈
      [(['L', 'O', 'A', 'D'], 1#4), (['S', 'T', 'O', 'R', 'E'], 2#4), (['A', 'D', 'D'], 3#4), (['S', 'U', 'B', 'T'], 4#4),
        (['S', 'K', 'I', 'P', 'C', 'O', 'N', 'D'], 8#4), (['J', 'U', 'M', 'P'], 9#4)] ∧
    (Assembler.decDigit '0').isSome = true ∧
    Assembler.readHex ['0', 'A', '0', '0'] = some 0xA00 ∧ { Assembler.Pass.start with cursor := 4094 }.cursor < 4095 := by decide
/-- `JUMP A` and `A, HEX, 12`: a reference in slot 0, a literal in slot 1, an Empty slot 2. -/
theorem witness_AssembledImageLoads :
    (∃ m, Assembler.assemble
      ['J', 'U', 'M', 'P', ' ', 'A', '\n', 'A', ',', ' ', 'H', 'E', 'X', ',', ' ', '1', '2'] = .ok m) ∧
    ∃ p, Assembler.assembleLines (Assembler.sourceLines
      ['J', 'U', 'M', 'P', ' ', 'A', '\n', 'A', ',', ' ', 'H', 'E', 'X', ',', ' ', '1', '2']) Assembler.Pass.start =
        .ok p ∧ (0, .variableRef 9#4 ['A']) ∈ p.slots ∧ (1, .literal 0x0012#16) ∈ p.slots ∧
        (∀ e ∈ p.slots, e.1 ≠ 2) ∧ (['A'], 0x001#12) ∈ p.symbols :=
  ⟨⟨_, rfl⟩, _, rfl, by decide, by decide, by decide, by decide⟩

end Sys2Proof.Tests
end

section
/-! The family 00_scope.md: what a run draws from `IN`, and that the time of the draw makes no difference. -/

namespace Sys2Proof

/-! ### The decoder, read backwards -/

@[simp] theorem SkipCond.bits_ofBits (b : BitVec 2) : (SkipCond.ofBits b).bits = b := by
  revert b
  decide

/-- Every handler's instruction keeps the whole address field (30_encoding.md R53). -/
@[simp] theorem addressField_instrOf (h : Config.Handler) (a : Addr) : (instrOf h a).addressField = a := by
  cases h with
  | skipcond =>
    apply BitVec.eq_of_toNat_eq
    simp only [instrOf, Instr.addressField, SkipCond.bits_ofBits]
    rw [toNat_append_eq, toNat_slice_eq, toNat_slice_eq]
    omega
  | _ => rfl

/-- The default table lists each handler at its instruction's opcode (30_encoding.md R56). -/
theorem opcode_instrOf_of_lookup {op : Opcode} {h : Config.Handler} (a : Addr)
    (hl : Config.defaultTable.lookup op = some h) : (instrOf h a).opcode = op := by
  have key : ∀ op, Config.defaultTable.lookup op = some h → op = (instrOf h 0#12).opcode := by
    cases h <;> decide
  rw [key op hl]
  cases h <;> rfl

/-- A decoded instruction has the opcode and the address field of its word (30_encoding.md R51, R53). -/
theorem fields_of_decodeWord {w : Word} {i : Instr} (h : decodeWord w = .ok i) :
    opcode w = i.opcode ∧ addr w = i.addressField := by
  unfold decodeWord at h
  split at h
  · rename_i hl
    cases h
    exact ⟨(opcode_instrOf_of_lookup _ hl).symm, (addressField_instrOf _ _).symm⟩
  · cases h

end Sys2Proof

namespace Sys2Proof.Machine

/-! ### INPUT with and without a word at hand -/

theorem exec_input_cons {s : State} {w : Word} {rest : List Word} (g : Addr) (hi : s.inp = w :: rest) :
    exec (.input g) s = .next { s with inReg := w, ac := w, inp := rest } := by
  simp only [exec, execInput, hostInput, hi]
  rfl

/-- INPUT with a word at hand completes (43_io.md R120). -/
theorem step_input_cons {s : State} {g : Addr} {w : Word} {rest : List Word} (he : s.execState = .executing)
    (hb : s.backed s.pc) (hd : decodeWord (s.word s.pc) = .ok (.input g)) (hi : s.inp = w :: rest) :
    step s = .next { s with
      mar := g, ir := s.word s.pc, pc := inc12 s.pc, inReg := w, ac := w, inp := rest } := by
  have hg : addr (s.word s.pc) = g := (fields_of_decodeWord hd).2
  have hd' : decodeWord (afterDecode s).ir = .ok (.input g) := hd
  have hh : holds (.input g) (afterDecode s) = false := by simp [holds, afterDecode, hi]
  rw [step_executing he, cycle_eq, if_pos hb, execute_eq, hd']
  simp only [hh, Bool.false_eq_true, if_false]
  rw [exec_input_cons (s := afterDecode s) g hi, ← hg]
  rfl

/-- An INPUT that asks for a word and gets none holds (43_io.md R123). -/
theorem step_of_awaitsInput {s : State} (ha : s.awaitsInput = true) : step s = .next s := by
  obtain ⟨he, hb, g, hd, hi⟩ := (State.awaitsInput_iff s).mp ha
  have hd' : decodeWord (afterDecode s).ir = .ok (.input g) := hd
  have hh : holds (.input g) (afterDecode s) = true := by simp [holds, afterDecode, hi]
  rw [step_executing he, cycle_eq, if_pos hb, execute_eq, hd']
  exact if_pos hh

/-- Only an INPUT with no word at hand asks for one. -/
theorem opcode_and_inp_of_awaitsInput {s : State} (ha : s.awaitsInput = true) :
    opcode s.nextWord = 5#4 ∧ s.inp = [] := by
  obtain ⟨-, -, g, hd, hi⟩ := (State.awaitsInput_iff s).mp ha
  exact ⟨(fields_of_decodeWord hd).1, hi⟩

/-! ### The draw -/

theorem Run.fed_of_wordAt {input : InputSequence} {r : Run} {w : Word} (ha : r.state.awaitsInput = true)
    (hw : input.wordAt r.drawn = some w) :
    r.fed input = { state := r.state.supplyInput w, drawn := r.drawn + 1 } := by
  simp [Run.fed, ha, hw]

/-- Where no INPUT asks for a word, or `IN` has ended, nothing is drawn. -/
theorem Run.fed_eq_self {input : InputSequence} {r : Run}
    (h : r.state.awaitsInput = true → input.wordAt r.drawn = none) : r.fed input = r := by
  rcases Run.fed_cases input r with ⟨hf, -⟩ | ⟨w, ha, hw, -⟩
  · exact hf
  · simp [h ha] at hw

/-- A step of a run that draws nothing is the machine's step. -/
theorem stepOn_of_step {input : InputSequence} {r : Run} {t : State}
    (h : r.state.awaitsInput = true → input.wordAt r.drawn = none) (hs : step r.state = .next t) :
    stepOn input r = .next { state := t, drawn := r.drawn } := by
  rw [stepOn_next_iff, Run.fed_eq_self h]
  exact ⟨hs, rfl⟩

/-- An INPUT that asks for a word completes with the next one of `IN` (43_io.md R120). -/
theorem stepOn_input_of_wordAt {input : InputSequence} {r : Run} {g : Addr} {w : Word}
    (he : r.state.execState = .executing) (hb : r.state.backed r.state.pc)
    (hd : decodeWord r.state.nextWord = .ok (.input g)) (hi : r.state.inp = [])
    (hw : input.wordAt r.drawn = some w) :
    stepOn input r = .next
      { state :=
          { r.state with
            mar := g, ir := r.state.nextWord, pc := inc12 r.state.pc, inReg := w, ac := w, inp := [] }
        drawn := r.drawn + 1 } := by
  have ha : r.state.awaitsInput = true := (State.awaitsInput_iff _).mpr ⟨he, hb, g, hd, hi⟩
  have hs : (r.state.supplyInput w).inp = [w] := by simp [State.supplyInput, hi]
  rw [stepOn_next_iff, Run.fed_of_wordAt ha hw]
  exact ⟨step_input_cons (s := r.state.supplyInput w) he hb hd hs, rfl⟩

/-! ### Runs and the time of the draw -/

theorem Reaches.drawn_le {input : InputSequence} {r t : Run} (h : Reaches input r t) : r.drawn ≤ t.drawn := by
  induction h with
  | refl => exact le_rfl
  | @step t u _ hs ih =>
    rw [(stepOn_next_iff.mp hs).2]
    rcases Run.fed_cases input t with ⟨hf, -⟩ | ⟨w, -, -, hf⟩ <;> rw [hf]
    · exact ih
    · exact Nat.le_succ_of_le ih

/-- On no further input, one more step of the machine. -/
theorem reaches_start_of_step {r : Run} {s t : State} (h : Reaches (.finite []) r (Run.start s)) (hs : step s = .next t) :
    Reaches (.finite []) r (Run.start t) :=
  .step h (stepOn_of_step (r := Run.start s) (fun _ => rfl) hs)

/-- A word supplied at a run's end could have been supplied at its start: a step that held for want of it changed nothing
(43_io.md R123), and every other step goes the same. -/
theorem Reaches.supplyInput {r t : Run} (w : Word) (h : Reaches (.finite []) r t) :
    Reaches (.finite []) (Run.start (r.state.supplyInput w)) (Run.start (t.state.supplyInput w)) := by
  induction h with
  | refl => exact .refl _
  | @step t u _ hs ih =>
    rw [stepOn_next_iff, Run.fed_nil] at hs
    cases ha : t.state.awaitsInput with
    | false => exact reaches_start_of_step ih (step_supplyInput w ha hs.1)
    | true =>
      have hu : t.state = u.state := by simpa [step_of_awaitsInput ha] using hs.1
      rwa [← hu]

/-- The state a run starts from with the words of `IN` it draws up to a position added to those at hand. -/
def Run.given (input : InputSequence) (r : Run) (j : Nat) : State :=
  { r.state with inp := r.state.inp ++ input.between r.drawn j }

@[simp] theorem Run.given_drawn (input : InputSequence) (r : Run) : r.given input r.drawn = r.state := by
  simp [Run.given]

theorem Run.given_succ {input : InputSequence} {r : Run} {j : Nat} {w : Word} (hj : r.drawn ≤ j)
    (hw : input.wordAt j = some w) : r.given input (j + 1) = (r.given input j).supplyInput w := by
  simp [Run.given, State.supplyInput, State.setInp, InputSequence.between_succ hj hw]

/-- Settles O57: the cases of an INPUT that asks for a word, and every step that asks for none. -/
theorem inputDrawsFromSequence : Obligations.InputDrawsFromSequence := by
  intro input r
  refine ⟨fun g he hb hd hi => ⟨fun w hw => stepOn_input_of_wordAt he hb hd hi hw, fun hn => ?_, ?_⟩, fun hno t ht => ?_⟩
  · have ha : r.state.awaitsInput = true := (State.awaitsInput_iff _).mpr ⟨he, hb, g, hd, hi⟩
    exact stepOn_of_step (fun _ => hn) (step_of_awaitsInput ha)
  · rintro word rfl
    exact ⟨_, stepOn_input_of_wordAt he hb hd hi rfl, rfl, rfl⟩
  · refine stepOn_of_step (fun ha => ?_) ht
    obtain ⟨hop, hinp⟩ := opcode_and_inp_of_awaitsInput ha
    exact hno.elim (absurd hop) (absurd hinp)

/-- Settles O58, by induction on the run: a word drawn at a step is moved to the run's start. -/
theorem runIsRunOnDrawnPrefix : Obligations.RunIsRunOnDrawnPrefix := by
  intro input r t h
  change Reaches (.finite []) (Run.start (r.given input t.drawn)) (Run.start t.state)
  induction h with
  | refl => simpa using Reaches.refl _
  | @step t u hr hs ih =>
    obtain ⟨hstep, hdrawn⟩ := stepOn_next_iff.mp hs
    rcases Run.fed_cases input t with ⟨hf, -⟩ | ⟨w, -, hw, hf⟩
    · rw [hf] at hstep hdrawn
      rw [hdrawn]
      exact reaches_start_of_step ih hstep
    · rw [hf] at hstep hdrawn
      rw [hdrawn, Run.given_succ hr.drawn_le hw]
      exact reaches_start_of_step (ih.supplyInput w) hstep

end Sys2Proof.Machine
end

section
/-! The family 10_state.md: the masked registers, and which cycles write `IR`, `MAR`, `AC`, `MBR` and `STATE`. -/

namespace Sys2Proof.Machine

/-! ### The mask and the increment as numbers -/

/-- The mask on `PC` and `MAR` keeps a word modulo 4096 (10_state.md R12, R13). -/
theorem trunc12_eq_ofNat_mod (v : Word) : trunc12 v = BitVec.ofNat 12 (v.toNat % 4096) := by
  apply BitVec.eq_of_toNat_eq
  simp [trunc12]

theorem toNat_inc12 (a : Addr) : (inc12 a).toNat = (a.toNat + 1) % 4096 := by
  simp [inc12, BitVec.toNat_add]

/-! ### What Fetch and Decode leave -/

@[simp] theorem afterDecode_ac (s : State) : (afterDecode s).ac = s.ac := rfl
@[simp] theorem afterDecode_ir (s : State) : (afterDecode s).ir = s.nextWord := rfl
@[simp] theorem afterDecode_mar (s : State) : (afterDecode s).mar = addr s.nextWord := rfl
@[simp] theorem afterDecode_mbr (s : State) : (afterDecode s).mbr = s.mbr := rfl
@[simp] theorem afterDecode_execState (s : State) : (afterDecode s).execState = s.execState := rfl

/-! ### What a handler that runs to its end does to each register -/

/-- No handler writes `IR` (10_state.md R11). -/
theorem exec_next_ir {i : Instr} {s t : State} (h : exec i s = .next t) : t.ir = s.ir := by
  rcases exec_next_cases h with ⟨_, _, -, -, rfl⟩ | ⟨_, -, -, rfl⟩ | ⟨_, _, _, -, -, rfl⟩ | ⟨_, -, -, rfl⟩ |
    ⟨_, -, rfl⟩ | ⟨_, -, rfl⟩ | ⟨_, _, -, rfl⟩ | ⟨_, -, rfl⟩ <;> rfl

/-- A handler puts its address field in `MAR` or leaves `MAR` alone (10_state.md R13). -/
theorem exec_next_mar {i : Instr} {s t : State} (h : exec i s = .next t) :
    t.mar = i.addressField ∨ t.mar = s.mar := by
  rcases exec_next_cases h with ⟨_, _, hi, -, rfl⟩ | ⟨_, rfl, -, rfl⟩ | ⟨_, _, _, -, -, rfl⟩ | ⟨_, -, -, rfl⟩ |
    ⟨_, -, rfl⟩ | ⟨_, -, rfl⟩ | ⟨_, _, -, rfl⟩ | ⟨_, -, rfl⟩
  · rcases hi with ⟨rfl, -⟩ | ⟨rfl, -⟩ | ⟨rfl, -⟩ <;> exact .inl rfl
  · exact .inl rfl
  all_goals exact .inr rfl

/-- Only LOAD, ADD, SUBT and INPUT write `AC` (10_state.md R10). -/
theorem exec_next_ac {i : Instr} {s t : State} (h : exec i s = .next t) (hne : t.ac ≠ s.ac) :
    i.opcode = 1#4 ∨ i.opcode = 3#4 ∨ i.opcode = 4#4 ∨ i.opcode = 5#4 := by
  rcases exec_next_cases h with ⟨_, _, hi, -, -⟩ | ⟨_, -, -, rfl⟩ | ⟨_, _, _, rfl, -, -⟩ | ⟨_, rfl, -, -⟩ |
    ⟨_, -, rfl⟩ | ⟨_, -, rfl⟩ | ⟨_, _, -, rfl⟩ | ⟨_, -, rfl⟩
  · rcases hi with ⟨rfl, -⟩ | ⟨rfl, -⟩ | ⟨rfl, -⟩ <;> simp [Instr.opcode]
  · exact absurd rfl hne
  · simp [Instr.opcode]
  · simp [Instr.opcode]
  all_goals exact absurd rfl hne

/-- Only LOAD, STORE, ADD and SUBT write `MBR` (10_state.md R14). -/
theorem exec_next_mbr {i : Instr} {s t : State} (h : exec i s = .next t) (hne : t.mbr ≠ s.mbr) :
    1 ≤ i.opcode.toNat ∧ i.opcode.toNat ≤ 4 := by
  rcases exec_next_cases h with ⟨_, _, hi, -, -⟩ | ⟨_, rfl, -, -⟩ | ⟨_, _, _, -, -, rfl⟩ | ⟨_, -, -, rfl⟩ |
    ⟨_, -, rfl⟩ | ⟨_, -, rfl⟩ | ⟨_, _, -, rfl⟩ | ⟨_, -, rfl⟩
  · rcases hi with ⟨rfl, -⟩ | ⟨rfl, -⟩ | ⟨rfl, -⟩ <;> simp [Instr.opcode]
  · simp [Instr.opcode]
  all_goals exact absurd rfl hne

/-- HALT sets `STATE` to Halted and every other handler leaves it alone (10_state.md R17). -/
theorem exec_next_execState {i : Instr} {s t : State} (h : exec i s = .next t) :
    t.execState = if i.opcode = 7#4 then .halted else s.execState := by
  rcases exec_next_cases h with ⟨_, _, hi, -, rfl⟩ | ⟨_, rfl, -, rfl⟩ | ⟨_, _, _, rfl, -, rfl⟩ | ⟨_, rfl, -, rfl⟩ |
    ⟨_, rfl, rfl⟩ | ⟨_, rfl, rfl⟩ | ⟨_, _, rfl, rfl⟩ | ⟨_, rfl, rfl⟩
  · rcases hi with ⟨rfl, -⟩ | ⟨rfl, -⟩ | ⟨rfl, -⟩ <;> rfl
  all_goals rfl

/-- A handler that faults has left `STATE` alone (60_exceptions.md R149). -/
theorem exec_fault_execState {i : Instr} {s : State} {r : Fault} (h : exec i s = .fault r) :
    r.left.execState = s.execState := by
  obtain ⟨_, -, ⟨-, rfl⟩ | ⟨-, rfl⟩⟩ := exec_fault_cases h <;> rfl

/-! ### What a whole step does -/

/-- Only an INPUT with no word at hand holds (43_io.md R123). -/
theorem holds_iff {i : Instr} {s : State} : holds i s = true ↔ i.opcode = 5#4 ∧ s.inp = [] := by
  cases i <;> simp [holds, Instr.opcode]

/-- A step's next state by the fetched word's fields: a held INPUT, or the handler of an instruction that has the word's
opcode and address field. -/
theorem step_next_held_or_exec {s t : State} (h : step s = .next t) :
    (t = s ∧ opcode s.nextWord = 5#4 ∧ s.inp = []) ∨
      ∃ i, opcode s.nextWord = i.opcode ∧ addr s.nextWord = i.addressField ∧ exec i (afterDecode s) = .next t := by
  obtain ⟨-, -, i, hd, ⟨hh, rfl⟩ | ⟨-, hx⟩⟩ := step_next_cases h
  all_goals obtain ⟨hop, haddr⟩ := fields_of_decodeWord hd
  · obtain ⟨hi, hinp⟩ := holds_iff.mp hh
    exact .inl ⟨rfl, hop.trans hi, hinp⟩
  · exact .inr ⟨i, hop, haddr, hx⟩

/-- A step that answers a next state ends Halted exactly by HALT (10_state.md R17). -/
theorem step_next_halted_iff {s t : State} (h : step s = .next t) :
    t.execState = .halted ↔ opcode s.nextWord = 7#4 := by
  obtain ⟨he, -⟩ := step_next_cases h
  rcases step_next_held_or_exec h with ⟨rfl, hop, -⟩ | ⟨i, hop, -, hx⟩
  · simp [he, hop]
  · simp [exec_next_execState hx, hop, he]

/-- A step that faults, in Fetch, at the dispatch or in a handler, has left `STATE` alone (60_exceptions.md R149). -/
theorem step_fault_execState {s : State} {r : Fault} (h : step s = .fault r) : r.left.execState = s.execState := by
  obtain ⟨-, ⟨-, rfl⟩ | ⟨-, ⟨_, -, rfl⟩ | ⟨i, -, hx⟩⟩⟩ := step_fault_cases h
  · rfl
  · rfl
  · simpa using exec_fault_execState hx

/-! ### The obligations -/

/-- Settles O35: both masked assignments are the register's writer at the value modulo 4096. -/
theorem pcAndMarAreMasked : Obligations.PcAndMarAreMasked := by
  refine ⟨fun s v => ?_, toNat_inc12⟩
  rw [State.assignPc_eq, State.assignMar_eq, trunc12_eq_ofNat_mod]
  exact ⟨rfl, rfl⟩

/-- Settles O36: Decode has put the word in `IR` and its field in `MAR`, and a handler writes at most that same field. -/
theorem irAndMarAfterCycle : Obligations.IrAndMarAfterCycle := by
  intro s t h
  rcases step_next_held_or_exec h with hheld | ⟨i, -, haddr, hx⟩
  · exact .inl hheld
  · have hir := exec_next_ir hx
    have hmar := exec_next_mar hx
    rw [afterDecode_ir] at hir
    rw [afterDecode_mar, ← haddr, or_self] at hmar
    exact .inr ⟨hir, hmar⟩

/-- Settles O38: a held cycle changes nothing, and Fetch and Decode write neither register, so the handler did. -/
theorem acAndMbrWriters : Obligations.AcAndMbrWriters := by
  intro s t h
  rcases step_next_held_or_exec h with ⟨rfl, -⟩ | ⟨i, hop, -, hx⟩
  · exact ⟨absurd rfl, absurd rfl⟩
  · rw [hop]
    exact ⟨by simpa only [afterDecode_ac] using exec_next_ac hx,
      by simpa only [afterDecode_mbr] using exec_next_mbr hx⟩

/-- Settles O39: a step starts in Executing and Halted comes by HALT alone, no fault writes `STATE`, and an accepted load
answers the launch state. -/
theorem stateFlagTransitions : Obligations.StateFlagTransitions := by
  refine ⟨fun s t h => ⟨(step_next_cases h).1, step_next_halted_iff h⟩, fun s r h => step_fault_execState h,
    fun image l s t h => ?_⟩
  obtain ⟨-, -, rfl⟩ := load_eq_ok.mp h
  rfl

end Sys2Proof.Machine
end

section
/-! The family 20_memory.md: the byte order, `MemWrite`, the host's raw access, and what a cycle does to memory. -/

namespace Sys2Proof

/-! ### The bytes of a word as numbers -/

/-- The high byte as a number: `w[15:8]` (20_memory.md R37). -/
theorem toNat_highByte (w : Word) : (highByte w).toNat = w.toNat / 256 := by
  rw [highByte, toNat_slice_eq]
  omega

/-- The low byte as a number: `w[7:0]` (20_memory.md R37). -/
theorem toNat_lowByte (w : Word) : (lowByte w).toNat = w.toNat % 256 := by
  rw [lowByte, toNat_slice_eq]
  omega

end Sys2Proof

namespace Sys2Proof.Machine

theorem Memory.toNat_readWord (m : Memory) (a : Nat) :
    (m.readWord a).toNat = (m.readByte (2 * a)).toNat * 256 + (m.readByte (2 * a + 1)).toNat :=
  toNat_append_eq _ _

/-- A byte that a write of a word changes is one of that word's two (20_memory.md R37). -/
theorem Memory.byte_of_writeWord_ne {m : Memory} {a k : Nat} {w : Word}
    (h : (m.writeWord a w).readByte k ≠ m.readByte k) : k = 2 * a ∨ k = 2 * a + 1 := by
  by_contra hk
  obtain ⟨hhi, hlo⟩ := not_or.mp hk
  exact h (by rw [Memory.readByte_writeWord, if_neg hlo, if_neg hhi])

/-! ### The host's raw access -/

/-- The host's `get`: the check, then the word (20_memory.md R34, R47). -/
theorem State.hostGet_eq (s : State) (raw : Nat) :
    s.hostGet raw =
      if raw < s.memSize.words then .ok (s.mem.readWord raw) else .error (.addressOutOfRange raw) := by
  by_cases h : raw < s.memSize.words
  · simp only [State.hostGet, Memory.get_of_lt _ h, if_pos h]
  · simp only [State.hostGet, Memory.get_of_not_lt _ h, if_neg h]

/-- The host's `set`: the check, then the write (20_memory.md R34, R47). -/
theorem State.hostSet_eq (s : State) (raw : Nat) (w : Word) :
    s.hostSet raw w =
      if raw < s.memSize.words then .ok (s.setMem (s.mem.writeWord raw w))
      else .error (.addressOutOfRange raw) := by
  by_cases h : raw < s.memSize.words
  · simp only [State.hostSet, Memory.set_of_lt _ _ h, if_pos h]
  · simp only [State.hostSet, Memory.set_of_not_lt _ _ h, if_neg h]

/-- The host gets the word it set, and every other address as before (20_memory.md R47). -/
theorem State.hostGet_setMem_writeWord {s : State} {raw : Nat} (raw' : Nat) (w : Word)
    (h : raw < s.memSize.words) :
    (s.setMem (s.mem.writeWord raw w)).hostGet raw' = if raw' = raw then .ok w else s.hostGet raw' := by
  rw [State.hostGet_eq, State.hostGet_eq, State.setMem_mem, State.setMem_memSize, Memory.readWord_writeWord]
  by_cases hr : raw' = raw
  · subst hr
    simp only [if_pos h, if_true]
  · simp only [if_neg hr]

/-! ### What a cycle does to memory -/

@[simp] theorem afterDecode_mem (s : State) : (afterDecode s).mem = s.mem := rfl
@[simp] theorem afterDecode_memSize (s : State) : (afterDecode s).memSize = s.memSize := rfl

/-- No handler writes the memory size (00_scope.md R5). -/
theorem exec_next_memSize {i : Instr} {s t : State} (h : exec i s = .next t) : t.memSize = s.memSize := by
  rcases exec_next_cases h with ⟨_, _, -, -, rfl⟩ | ⟨_, -, -, rfl⟩ | ⟨_, _, _, -, -, rfl⟩ | ⟨_, -, -, rfl⟩ |
    ⟨_, -, rfl⟩ | ⟨_, -, rfl⟩ | ⟨_, _, -, rfl⟩ | ⟨_, -, rfl⟩ <;> rfl

/-- A handler leaves memory alone, or it is STORE and writes `AC` to the word it addresses (20_memory.md R36). -/
theorem exec_next_mem {i : Instr} {s t : State} (h : exec i s = .next t) :
    t.mem = s.mem ∨ ∃ x, i = .store x ∧ s.backed x ∧ t.mem = s.mem.writeWord x.toNat s.ac := by
  rcases exec_next_cases h with ⟨_, _, -, -, rfl⟩ | ⟨x, hi, hb, rfl⟩ | ⟨_, _, _, -, -, rfl⟩ | ⟨_, -, -, rfl⟩ |
    ⟨_, -, rfl⟩ | ⟨_, -, rfl⟩ | ⟨_, _, -, rfl⟩ | ⟨_, -, rfl⟩
  case inr.inl => exact .inr ⟨x, hi, hb, rfl⟩
  all_goals exact .inl rfl

/-- A handler that faults has left memory alone (60_exceptions.md R149). -/
theorem exec_fault_mem {i : Instr} {s : State} {r : Fault} (h : exec i s = .fault r) :
    r.left.mem = s.mem ∧ r.left.memSize = s.memSize := by
  obtain ⟨_, -, ⟨-, rfl⟩ | ⟨-, rfl⟩⟩ := exec_fault_cases h <;> exact ⟨rfl, rfl⟩

/-- No step writes the memory size (00_scope.md R5). -/
theorem step_next_memSize {s t : State} (h : step s = .next t) : t.memSize = s.memSize := by
  rcases step_next_held_or_exec h with ⟨rfl, -⟩ | ⟨i, -, -, hx⟩
  · rfl
  · simpa using exec_next_memSize hx

/-- A step leaves memory alone, or it is a STORE cycle and writes `AC` to the word at the fetched word's address field
(20_memory.md R36). -/
theorem step_next_mem {s t : State} (h : step s = .next t) :
    t.mem = s.mem ∨ opcode s.nextWord = 2#4 ∧ s.backed (addr s.nextWord) ∧
      t.mem = s.mem.writeWord (addr s.nextWord).toNat s.ac := by
  rcases step_next_held_or_exec h with ⟨rfl, -⟩ | ⟨i, hop, haddr, hx⟩
  · exact .inl rfl
  · rcases exec_next_mem hx with hm | ⟨x, rfl, hb, hm⟩
    · exact .inl hm
    · rw [hop, haddr]
      exact .inr ⟨rfl, hb, hm⟩

/-- A step that faults, in Fetch, at the dispatch or in a handler, has left memory alone (60_exceptions.md R149). -/
theorem step_fault_mem {s : State} {r : Fault} (h : step s = .fault r) :
    r.left.mem = s.mem ∧ r.left.memSize = s.memSize := by
  obtain ⟨-, ⟨-, rfl⟩ | ⟨-, ⟨_, -, rfl⟩ | ⟨i, -, hx⟩⟩⟩ := step_fault_cases h
  · exact ⟨rfl, rfl⟩
  · exact ⟨rfl, rfl⟩
  · simpa using exec_fault_mem hx

/-! ### The invariant -/

/-- The invariant speaks of memory and its size alone. -/
theorem State.Inv.of_mem_eq {s t : State} (h : s.Inv) (hm : t.mem = s.mem) (hz : t.memSize = s.memSize) : t.Inv := by
  rwa [State.Inv, hm, hz]

/-- Writing a word that exists keeps the invariant. -/
theorem State.Inv.of_mem_eq_writeWord {s t : State} {a : Addr} {w : Word} (h : s.Inv) (hb : s.backed a)
    (hm : t.mem = s.mem.writeWord a.toNat w) (hz : t.memSize = s.memSize) : t.Inv := by
  rw [State.Inv, hm, hz]
  exact ⟨Memory.wf_writeWord h.1 _ _, Memory.within_writeWord h.2 hb⟩

/-! ### The obligations -/

/-- Settles O50: a step writes at most one word that exists, and a fault leaves memory alone. -/
theorem stepKeepsInvariant : Obligations.StepKeepsInvariant := by
  intro s hs
  refine ⟨fun t h => ?_, fun r h => ?_⟩
  · have hz := step_next_memSize h
    rcases step_next_mem h with hm | ⟨-, hb, hm⟩
    · exact hs.of_mem_eq hm hz
    · exact hs.of_mem_eq_writeWord hb hm hz
  · obtain ⟨hm, hz⟩ := step_fault_mem h
    exact hs.of_mem_eq hm hz

/-- Settles O30: both answers of `MemWrite`, STORE as a call of it, and every other handler by what it leaves alone. -/
theorem memWriteReplacesOneWord : Obligations.MemWriteReplacesOneWord := by
  refine ⟨fun s v hb => ?_, fun s v hb => ?_, fun x s => rfl, fun i s t h hi => ?_⟩
  · rw [memWriteMar_eq, if_pos hb]
    exact ⟨_, rfl, rfl, fun a => Memory.readWord_writeWord _ _ _ _⟩
  · rw [memWriteMar_eq, if_neg hb]
  · rcases exec_next_mem h with hm | ⟨x, hx, -⟩
    · exact hm
    · exact absurd hx (hi x)

/-- Settles O31: the check of both calls, then a word read after a word written. -/
theorem hostSetThenGet : Obligations.HostSetThenGet := by
  refine ⟨fun s raw w hr => ?_, fun s raw w hr => ⟨s.setMem (s.mem.writeWord raw w), ?_, ?_, fun raw' hne => ?_⟩⟩
  · rw [State.hostGet_eq, State.hostSet_eq, if_neg (Nat.not_lt.mpr hr), if_neg (Nat.not_lt.mpr hr)]
    exact ⟨rfl, rfl⟩
  · rw [State.hostSet_eq, if_pos hr]
  · rw [State.hostGet_setMem_writeWord raw w hr, if_pos rfl]
  · rw [State.hostGet_setMem_writeWord raw' w hr, if_neg hne]

/-- Settles O32: a word read is its two bytes joined, and the two bytes written are the word's halves. -/
theorem wordsAreBigEndianBytes : Obligations.WordsAreBigEndianBytes := by
  refine ⟨Memory.toNat_readWord, fun m a w => ⟨?_, ?_⟩⟩
  · rw [Memory.readByte_writeWord, if_neg (by omega), if_pos rfl, toNat_highByte]
  · rw [Memory.readByte_writeWord, if_pos rfl, toNat_lowByte]

/-- Settles O34: a step that changes a byte is a STORE cycle, whose write changes the two bytes of one word. -/
theorem stepWritesAtMostOneWord : Obligations.StepWritesAtMostOneWord := by
  intro s t h k hk
  rcases step_next_mem h with hm | ⟨hop, -, hm⟩
  · exact absurd (by rw [hm]) hk
  · rw [hm] at hk
    exact ⟨hop, Memory.byte_of_writeWord_ne hk⟩

end Sys2Proof.Machine
end

section
/-! The family 30_encoding.md: the codec, the decoder and the encoder, the bits a handler ignores, and the assembler's
lines and image. -/

namespace Sys2Proof

/-! ### The codec -/

/-- The two fields of a word make it up (30_encoding.md R51). -/
theorem codec_opcode_addr (w : Word) : codec (opcode w) (addr w) = w := by
  apply BitVec.eq_of_toNat_eq
  rw [toNat_codec, toNat_opcode, toNat_addr]
  omega

/-- Masking with `0x0FFF` is the residue modulo 4096. -/
theorem and_0x0FFF (n : Nat) : n &&& 0x0FFF = n % 4096 := Nat.and_two_pow_sub_one_eq_mod n 12

/-- The condition bits of a word are bits 11:10 of its address field (30_encoding.md R53). -/
theorem extractLsb'_addr (w : Word) : (addr w).extractLsb' 10 2 = w.extractLsb' 10 2 := by
  apply BitVec.eq_of_toNat_eq
  rw [toNat_slice_eq, toNat_slice_eq, toNat_addr]
  omega

/-! ### The decoder by what the opcode table holds -/

theorem decodeWord_of_lookup_some {w : Word} {h : Config.Handler}
    (hl : Config.defaultTable.lookup (opcode w) = some h) : decodeWord w = .ok (instrOf h (addr w)) := by
  simp only [decodeWord, hl]

theorem decodeWord_of_lookup_none {w : Word} (hl : Config.defaultTable.lookup (opcode w) = none) :
    decodeWord w = .error (.unregistered (opcode w)) := by
  simp only [decodeWord, hl]

/-- A word that decodes does so by the handler of its opcode, on its address field (30_encoding.md R55). -/
theorem decodeWord_eq_ok {w : Word} {i : Instr} :
    decodeWord w = .ok i ↔ ∃ h, Config.defaultTable.lookup (opcode w) = some h ∧ i = instrOf h (addr w) := by
  refine ⟨fun hd => ?_, ?_⟩
  · cases hl : Config.defaultTable.lookup (opcode w) with
    | none => rw [decodeWord_of_lookup_none hl] at hd; cases hd
    | some h =>
      rw [decodeWord_of_lookup_some hl] at hd
      exact ⟨h, rfl, (Except.ok.inj hd).symm⟩
  · rintro ⟨h, hl, rfl⟩
    exact decodeWord_of_lookup_some hl

/-- The default table leaves free exactly the opcodes 0 and 10 to 15 (30_encoding.md R56, R58). -/
theorem defaultTable_lookup_eq_none_iff (op : Opcode) :
    Config.defaultTable.lookup op = none ↔ op.toNat = 0 ∨ 10 ≤ op.toNat := by
  revert op
  decide

/-! ### The decoder after the encoder -/

/-- The handler of an instruction (30_encoding.md R56). -/
def Instr.handler : Instr → Config.Handler
  | .load _ => .load
  | .store _ => .store
  | .add _ => .add
  | .subt _ => .subt
  | .input _ => .input
  | .output _ => .output
  | .halt _ => .halt
  | .skipcond _ _ => .skipcond
  | .jump _ => .jump

/-- The default table holds each instruction's handler at its opcode (30_encoding.md R56). -/
theorem defaultTable_lookup_opcode (i : Instr) : Config.defaultTable.lookup i.opcode = some i.handler := by
  cases i <;> rfl

@[simp] theorem SkipCond.ofBits_bits (c : SkipCond) : SkipCond.ofBits c.bits = c := by
  cases c <;> rfl

/-- An instruction is its handler on its address field; SKIPCOND's field splits into what it was joined from
(30_encoding.md R53). -/
theorem instrOf_handler_addressField (i : Instr) : instrOf i.handler i.addressField = i := by
  cases i with
  | skipcond c ignored =>
    have hcond : (c.bits ++ ignored).extractLsb' 10 2 = c.bits := by
      apply BitVec.eq_of_toNat_eq
      rw [toNat_slice_eq, toNat_append_eq]
      omega
    have hignored : (c.bits ++ ignored).extractLsb' 0 10 = ignored := by
      apply BitVec.eq_of_toNat_eq
      rw [toNat_slice_eq, toNat_append_eq]
      omega
    simp only [Instr.handler, Instr.addressField, instrOf, hcond, hignored, SkipCond.ofBits_bits]
  | _ => rfl

/-- Decoding an instruction's word gives the instruction (30_encoding.md R51, R53, R56). -/
theorem decodeWord_encode (i : Instr) : decodeWord (encode i) = .ok i := by
  refine decodeWord_eq_ok.mpr ⟨i.handler, ?_, ?_⟩
  · rw [encode, opcode_codec, defaultTable_lookup_opcode]
  · rw [encode, addr_codec, instrOf_handler_addressField]

/-- Decoding takes the two bytes of one word and hands on the rest (30_encoding.md R50; 20_memory.md R37). -/
theorem decodeBytes_bytes_append (w : Word) (rest : List Byte) :
    decodeBytes ([highByte w, lowByte w] ++ rest) = (decodeWord w).map fun i => (i, rest) := by
  simp only [List.cons_append, List.nil_append, decodeBytes, wordOfBytes_bytes]

/-! ### The bits a handler ignores -/

/-- The mnemonic does not depend on the address field (30_encoding.md R55). -/
theorem mnemonic_instrOf (h : Config.Handler) (a b : Addr) : (instrOf h a).mnemonic = (instrOf h b).mnemonic := by
  cases h <;> rfl

end Sys2Proof

namespace Sys2Proof.Machine

/-- INPUT, OUTPUT and HALT have one effect whatever their field, SKIPCOND has one effect per condition (30_encoding.md
R53). -/
theorem exec_instrOf_eq {h : Config.Handler} {a b : Addr}
    (hh : h = .input ∨ h = .output ∨ h = .halt ∨ h = .skipcond ∧ a.extractLsb' 10 2 = b.extractLsb' 10 2) (s : State) :
    exec (instrOf h a) s = exec (instrOf h b) s := by
  rcases hh with rfl | rfl | rfl | ⟨rfl, hc⟩
  · rfl
  · rfl
  · rfl
  · simp only [instrOf, hc, exec, execSkipcond]

/-! ### The obligations on words -/

/-- Settles O1: the encoder puts the opcode and the field where the decoder reads them, and a word is its two bytes. -/
theorem encodedInstructionDecodesBack : Obligations.EncodedInstructionDecodesBack := by
  intro i _
  refine ⟨decodeWord_encode i, fun rest => ?_⟩
  rw [encodeBytes, decodeBytes_bytes_append, decodeWord_encode]
  rfl

/-- Settles O2: the instruction has the two fields of the word, and they make the word up. -/
theorem decodedWordEncodesBack : Obligations.DecodedWordEncodesBack := by
  intro w i hd
  obtain ⟨hop, haddr⟩ := fields_of_decodeWord hd
  refine ⟨?_, hop.symm, haddr.symm⟩
  rw [encode, ← hop, ← haddr, codec_opcode_addr]

/-- Settles O3: a shift is a division, the mask is a residue, and the codec is a concatenation. -/
theorem codecIsShiftAndMask : Obligations.CodecIsShiftAndMask := by
  refine ⟨fun w => ⟨?_, ?_⟩, fun op a => ?_⟩
  · rw [toNat_opcode, Nat.shiftRight_eq_div_pow]
  · rw [toNat_addr, and_0x0FFF]
  · rw [and_0x0FFF, Nat.mod_eq_of_lt a.isLt, codec, BitVec.toNat_append]

/-- Settles O5: the decoder answers by whether the table holds the opcode. -/
theorem unregisteredOpcodesRejected : Obligations.UnregisteredOpcodesRejected := by
  intro w
  split
  · rename_i hfree
    exact decodeWord_of_lookup_none ((defaultTable_lookup_eq_none_iff _).mpr hfree)
  · rename_i hreg
    obtain ⟨h, hl⟩ := Option.ne_none_iff_exists'.mp fun hl => hreg ((defaultTable_lookup_eq_none_iff _).mp hl)
    exact ⟨_, decodeWord_of_lookup_some hl⟩

/-- Settles O6: one opcode selects one handler, and the four named handlers read at most the condition bits. -/
theorem ignoredBitsDoNotMatter : Obligations.IgnoredBitsDoNotMatter := by
  intro w v i hd hv
  obtain ⟨h, hl, rfl⟩ := decodeWord_eq_ok.mp hd
  refine ⟨instrOf h (addr v), decodeWord_of_lookup_some (hv ▸ hl), mnemonic_instrOf _ _ _, fun hop s => ?_⟩
  apply exec_instrOf_eq
  rw [extractLsb'_addr, extractLsb'_addr]
  rcases hop with hop | hop | hop | ⟨hop, hc⟩ <;> rw [hop] at hl
  · exact .inl (Option.some.inj hl).symm
  · exact .inr (.inl (Option.some.inj hl).symm)
  · exact .inr (.inr (.inl (Option.some.inj hl).symm))
  · exact .inr (.inr (.inr ⟨(Option.some.inj hl).symm, hc⟩))

end Sys2Proof.Machine

namespace Sys2Proof.Machine.Assembler

/-! ### An operand line -/

/-- A token in any case of letters names the handler of its mnemonic (30_encoding.md R62, R63). -/
theorem handlerNamed_of_upper {t : Text} {h : Config.Handler} (hu : upper t = mnemonicText h) :
    handlerNamed t = some h := by
  rw [handlerNamed, hu]
  cases h <;> decide

/-- A token that is a mnemonic in some case of letters begins no comment (30_encoding.md R62). -/
theorem head?_ne_slash_of_upper {t : Text} {h : Config.Handler} (hu : upper t = mnemonicText h) :
    t.head? ≠ some '/' := by
  intro ht
  have hslash : (mnemonicText h).head? = some '/' := by
    rw [← hu, upper, List.head?_map, ht]
    rfl
  revert hslash
  cases h <;> decide

/-- An emission before the last slot (30_encoding.md R62). -/
theorem emit_of_lt (token : Text) (slot : Slot) {p : Pass} (hc : p.cursor < slotCount) :
    emit token slot p = .ok { p with
      cursor := p.cursor + 1, slots := (p.cursor, slot) :: p.slots.filter fun e => e.1 != p.cursor } := by
  rw [emit, if_pos hc]

/-- An operand that starts with a digit and reads as a numeral is a literal (30_encoding.md R64). -/
theorem operandSlot_of_readHex (op : Opcode) {c : Char} {cs : Text} {n : Nat} (hc : (decDigit c).isSome = true)
    (hn : readHex (c :: cs) = some n) : operandSlot op (c :: cs) = .ok (.literal (codec op (BitVec.ofNat 12 n))) := by
  simp only [operandSlot, hc, hn, if_true]

/-- A line of an operand mnemonic and one operand emits the operand's slot (30_encoding.md R63, R64). -/
theorem assembleLine_operand {first x : Text} {h : Config.Handler} {slot : Slot} (p : Pass)
    (hu : upper first = mnemonicText h) (ht : takesOperand h = true) (hx : operandSlot (opcodeOf h) x = .ok slot) :
    assembleLine [first, x] p = emit first slot p := by
  simp only [assembleLine, if_neg (head?_ne_slash_of_upper hu), handlerNamed_of_upper hu, instructionLine, if_pos ht,
    operandLine, hx]

/-- The handlers whose mnemonics take an operand, each with its mnemonic and opcode (30_encoding.md R63). -/
def operandMnemonics : List (Text × Opcode) :=
  ((Config.defaultTable.map Prod.snd).filter takesOperand).map fun h => (mnemonicText h, opcodeOf h)

theorem mem_operandMnemonics {t : Text} {op : Opcode} (hm : (t, op) ∈ operandMnemonics) :
    ∃ h, takesOperand h = true ∧ t = mnemonicText h ∧ op = opcodeOf h := by
  obtain ⟨h, hh, he⟩ := List.mem_map.mp hm
  obtain ⟨rfl, rfl⟩ := Prod.mk.inj he
  exact ⟨h, (List.mem_filter.mp hh).2, rfl, rfl⟩

/-- Settles O55: the line is its mnemonic's handler on a literal operand, whose emission has room. -/
theorem operandLineEmitsEncodedWord : Obligations.OperandLineEmitsEncodedWord := by
  intro first op c cs n p hm hc hn hp
  obtain ⟨h, ht, hu, rfl⟩ := mem_operandMnemonics hm
  rw [assembleLine_operand p hu ht (operandSlot_of_readHex _ hc hn), emit_of_lt _ _ hp]
  exact ⟨_, rfl, rfl, rfl, List.find?_cons_of_pos (beq_self_eq_true _)⟩

/-! ### The loaded image -/

theorem length_imageOfWords (ws : List Word) : (imageOfWords ws).length = 2 * ws.length := by
  induction ws with
  | nil => rfl
  | cons w ws ih => simp only [imageOfWords, List.length_cons, ih]; omega

/-- The bytes of an image of words, past its end too (20_memory.md R37). -/
theorem getD_imageOfWords (ws : List Word) (i : Nat) :
    (imageOfWords ws).getD (2 * i) Memory.unlisted = highByte (ws.getD i 0#16) ∧
      (imageOfWords ws).getD (2 * i + 1) Memory.unlisted = lowByte (ws.getD i 0#16) := by
  induction ws generalizing i with
  | nil =>
    rw [imageOfWords, List.getD_nil, List.getD_nil, List.getD_nil]
    exact ⟨rfl, rfl⟩
  | cons w ws ih =>
    cases i with
    | zero => exact ⟨rfl, rfl⟩
    | succ i => exact ih i

/-- A loaded image of words reads as its words, then as zeros (70_reset_and_hazards.md R172). -/
theorem readWord_launchState_imageOfWords (size : Config.MemSize) (ws : List Word) (l : Launch) (i : Nat) :
    (launchState size (imageOfWords ws) l).mem.readWord i = ws.getD i 0#16 := by
  obtain ⟨hhi, hlo⟩ := getD_imageOfWords ws i
  rw [Memory.readWord, readByte_launchState, readByte_launchState, hhi, hlo, wordOfBytes_bytes]

/-- The output is 4095 words, two bytes each (30_encoding.md R68). -/
theorem Image.length_bytes (m : Image) : (Image.bytes m).length = 8190 := by
  rw [Image.bytes, length_imageOfWords, Image.words, List.length_map, List.length_range, slotCount]

theorem Image.getD_words (m : Image) {i : Nat} (hi : i < slotCount) : (Image.words m).getD i 0#16 = Image.word m i := by
  rw [Image.words, List.getD_eq_getElem?_getD, List.getElem?_map, List.getElem?_range hi]
  rfl

/-- Load accepts an assembled image for either memory size, and each slot's word is in memory (70_reset_and_hazards.md
R171, R172). -/
theorem load_imageBytes (m : Image) (l : Launch) (s : State) :
    ∃ t, State.load (Image.bytes m) l s = .ok t ∧ ∀ i, i < slotCount → t.mem.readWord i = Image.word m i := by
  refine ⟨launchState s.memSize (Image.bytes m) l, load_eq_ok.mpr ⟨?_, ?_, rfl⟩, fun i hi => ?_⟩
  · rw [Image.length_bytes]
    cases s.memSize <;> decide
  · rw [Image.length_bytes]
  · rw [Image.bytes, readWord_launchState_imageOfWords, Image.getD_words m hi]

/-- A source that assembles went through both passes (30_encoding.md R62, R68). -/
theorem assemble_ok {source : Text} {m : Image} (h : assemble source = .ok m) :
    ∃ p, assembleLines (sourceLines source) Pass.start = .ok p ∧ resolve p.symbols p.slots = .ok m := by
  unfold assemble at h
  split at h
  · exact ⟨_, ‹_›, h⟩
  · cases h

/-- A name declared once has one address (30_encoding.md R67). -/
theorem Pass.Distinct.address_unique {p : Pass} (hp : p.Distinct) {name : Text} {a b : Addr}
    (ha : (name, a) ∈ p.symbols) (hb : (name, b) ∈ p.symbols) : b = a :=
  (Prod.mk.inj (List.inj_on_of_nodup_map hp.2 hb ha rfl)).2

/-- A reference resolves to its opcode with an address its name was declared at (30_encoding.md R68). -/
theorem slotWord_variableRef {symbols : List (Text × Addr)} {op : Opcode} {name : Text} {w : Word}
    (h : slotWord symbols (.variableRef op name) = .ok w) : ∃ a, (name, a) ∈ symbols ∧ w = codec op a := by
  rcases slotWord_cases h with hlit | ⟨_, _, a, heq, ha, hw⟩
  · cases hlit
  · cases heq
    exact ⟨a, ha, hw⟩

/-- Settles O56: the resolve pass gives each slot's word, load puts it in memory, and a name is declared once. -/
theorem assembledImageLoads : Obligations.AssembledImageLoads := by
  intro source m l s h
  obtain ⟨p, hp, hr⟩ := assemble_ok h
  obtain ⟨t, ht, hword⟩ := load_imageBytes m l s
  have hd : p.Distinct := assembleLines_distinct hp Pass.start_distinct
  refine ⟨Image.length_bytes m, p, t, hp, ht, fun i hi => ?_⟩
  obtain ⟨hempty, hfilled⟩ := resolve_word hr hd.1 i
  rw [hword i hi]
  refine ⟨hempty, fun w hw => (Except.ok.inj (hfilled _ hw)).symm, fun op name href => ?_⟩
  obtain ⟨a, ha, hw⟩ := slotWord_variableRef (hfilled _ href)
  exact ⟨a, ha, fun b hb => hd.address_unique ha hb, hw⟩

end Sys2Proof.Machine.Assembler
end

section
/-! The family 40_fde_cycle.md: the step as one cycle, the whole step as the spec lists it, where `PC` goes, and the
registration of handlers. -/

namespace Sys2Proof.Machine

/-! ### A cycle by what Fetch and Decode find -/

/-- A Fetch that finds a word (40_fde_cycle.md R81). -/
theorem fetch_of_backed {s : State} (hb : s.backed s.pc) :
    fetch s = .next { s with mar := s.pc, ir := s.nextWord, pc := inc12 s.pc } := by
  rw [fetch_eq, if_pos hb]
  rfl

/-- Fetch and Decode leave the host's words alone, so the hold is decided before them (43_io.md R123). -/
@[simp] theorem holds_afterDecode (i : Instr) (s : State) : holds i (afterDecode s) = holds i s := by
  cases i <;> rfl

/-- Execute of a word the default table knows does not look at `EXT` (40_fde_cycle.md R83, R87). -/
theorem executeWith_of_decodes {i : Instr} {s : State} (ext : Extension) (before : State)
    (hd : decodeWord s.ir = .ok i) :
    executeWith ext before s = if holds i s then .next before else exec i s := by
  simp only [executeWith, hd]

/-- Execute of a free opcode that the host registered (40_fde_cycle.md R83, R86). -/
theorem executeWith_of_extension {ext : Extension} {s : State} {h : State → Outcome} (before : State)
    (hl : Config.defaultTable.lookup (opcode s.ir) = none) (hx : ext.lookup (opcode s.ir) = some h) :
    executeWith ext before s = h s := by
  simp only [executeWith, decodeWord_of_lookup_none hl, hx]

/-- A cycle whose word the default table knows, whatever `EXT` holds (40_fde_cycle.md R81 to R83, R87). -/
theorem cycleWith_of_decodes {i : Instr} {s : State} (ext : Extension) (hb : s.backed s.pc)
    (hd : decodeWord s.nextWord = .ok i) :
    cycleWith ext s = if holds i s then .next s else exec i (afterDecode s) := by
  rw [cycleWith_eq, if_pos hb, executeWith_of_decodes (s := afterDecode s) ext s hd, holds_afterDecode]

/-- A cycle whose opcode is free and registered by the host (40_fde_cycle.md R81 to R83, R86). -/
theorem cycleWith_of_extension {ext : Extension} {s : State} {h : State → Outcome} (hb : s.backed s.pc)
    (hl : Config.defaultTable.lookup (opcode s.nextWord) = none) (hx : ext.lookup (opcode s.nextWord) = some h) :
    cycleWith ext s = h (afterDecode s) := by
  rw [cycleWith_eq, if_pos hb, executeWith_of_extension (s := afterDecode s) s hl hx]

/-- A step that fetches and decodes (40_fde_cycle.md R81 to R83). -/
theorem step_of_decodes {i : Instr} {s : State} (he : s.execState = .executing) (hb : s.backed s.pc)
    (hd : decodeWord s.nextWord = .ok i) :
    step s = if holds i s then .next s else exec i (afterDecode s) := by
  rw [step_executing he]
  exact cycleWith_of_decodes [] hb hd

/-- A step that fetches a free opcode (40_fde_cycle.md R83). -/
theorem step_of_free {s : State} (he : s.execState = .executing) (hb : s.backed s.pc)
    (hl : Config.defaultTable.lookup (opcode s.nextWord) = none) :
    step s = .fault (.invalidInstruction (opcode s.nextWord) (afterDecode s)) := by
  rw [step_executing he, cycle_eq, if_pos hb, execute_eq, afterDecode_ir, decodeWord_of_lookup_none hl]

/-- A step that finds no word at `PC` (40_fde_cycle.md R81). -/
theorem step_of_not_backed {s : State} (he : s.execState = .executing) (hb : ¬s.backed s.pc) :
    step s = .fault (.addressOutOfRange s.pc.toNat { s with mar := s.pc }) := by
  rw [step_executing he, cycle_eq, if_neg hb]

/-! ### The handlers, each by one equation (41_load_store.md, 42_arithmetic.md, 44_control.md) -/

theorem exec_load (x : Addr) (s : State) :
    exec (.load x) s =
      if s.backed x then .next { s with mar := x, mbr := s.word x, ac := s.word x }
      else .fault (.addressOutOfRange x.toNat { s with mar := x }) := by
  rw [exec, execLoad, readOperand_eq]
  split <;> rfl

theorem exec_store (x : Addr) (s : State) :
    exec (.store x) s =
      if s.backed x then .next { s with mar := x, mbr := s.ac, mem := s.mem.writeWord x.toNat s.ac }
      else .fault (.addressOutOfRange x.toNat { s with mar := x, mbr := s.ac }) :=
  writeOperand_eq x s

theorem exec_add (x : Addr) (s : State) :
    exec (.add x) s =
      if s.backed x then .next { s with mar := x, mbr := s.word x, ac := add16 s.ac (s.word x) }
      else .fault (.addressOutOfRange x.toNat { s with mar := x }) := by
  rw [exec, execAdd, readOperand_eq]
  split <;> rfl

theorem exec_subt (x : Addr) (s : State) :
    exec (.subt x) s =
      if s.backed x then .next { s with mar := x, mbr := s.word x, ac := sub16 s.ac (s.word x) }
      else .fault (.addressOutOfRange x.toNat { s with mar := x }) := by
  rw [exec, execSubt, readOperand_eq]
  split <;> rfl

theorem exec_skipcond (c : SkipCond) (g : BitVec 10) (s : State) :
    exec (.skipcond c g) s = .next { s with pc := if skips c s.ac then inc12 s.pc else s.pc } := by
  rw [exec, execSkipcond]
  split <;> rfl

/-- A STORE cycle to an address with a word behind it completes (41_load_store.md R101). -/
theorem step_store {x : Addr} {s : State} (he : s.execState = .executing) (hb : s.backed s.pc)
    (hd : decodeWord s.nextWord = .ok (.store x)) (hx : s.backed x) :
    step s = .next { afterDecode s with mar := x, mbr := s.ac, mem := s.mem.writeWord x.toNat s.ac } := by
  have hs : step s = exec (.store x) (afterDecode s) := step_of_decodes he hb hd
  rw [hs, exec_store, if_pos (show (afterDecode s).backed x from hx)]
  rfl

/-! ### Fields, sums and signs over numbers -/

theorem addr_eq_ofNat_mod (w : Word) : addr w = BitVec.ofNat 12 (w.toNat % 4096) := by
  apply BitVec.eq_of_toNat_eq
  rw [toNat_addr, BitVec.toNat_ofNat, Nat.mod_mod]

theorem inc12_eq_ofNat_mod (a : Addr) : inc12 a = BitVec.ofNat 12 ((a.toNat + 1) % 4096) := by
  apply BitVec.eq_of_toNat_eq
  rw [toNat_inc12, BitVec.toNat_ofNat, Nat.mod_mod]

theorem toNat_inc12_inc12 (a : Addr) : (inc12 (inc12 a)).toNat = (a.toNat + 2) % 4096 := by
  rw [toNat_inc12, toNat_inc12]
  omega

theorem inc12_inc12_eq_ofNat_mod (a : Addr) : inc12 (inc12 a) = BitVec.ofNat 12 ((a.toNat + 2) % 4096) := by
  apply BitVec.eq_of_toNat_eq
  rw [toNat_inc12_inc12, BitVec.toNat_ofNat, Nat.mod_mod]

theorem add16_eq_ofNat_mod (a b : Word) : add16 a b = BitVec.ofNat 16 ((a.toNat + b.toNat) % 65536) := by
  apply BitVec.eq_of_toNat_eq
  rw [add16, BitVec.toNat_add, BitVec.toNat_ofNat]
  omega

theorem sub16_eq_ofNat_mod (a b : Word) :
    sub16 a b = BitVec.ofNat 16 ((a.toNat + 65536 - b.toNat) % 65536) := by
  apply BitVec.eq_of_toNat_eq
  rw [sub16, BitVec.toNat_sub, BitVec.toNat_ofNat]
  omega

theorem isNegative_iff_le_toNat (v : Word) : isNegative v = true ↔ 32768 ≤ v.toNat := by
  rw [isNegative, ← BitVec.msb_eq_getLsbD_last v]
  exact (BitVec.msb_eq_true_iff_two_mul_ge (x := v)).trans (by omega)

theorem isZero_iff_toNat (v : Word) : isZero v = true ↔ v.toNat = 0 := by
  rw [isZero, beq_iff_eq, ← BitVec.toNat_inj]
  rfl

theorem isPositive_iff_toNat (v : Word) : isPositive v = true ↔ v.toNat < 32768 ∧ v.toNat ≠ 0 := by
  rw [isPositive, Bool.and_eq_true, Bool.not_eq_true', Bool.not_eq_true', ← Bool.not_eq_true,
    ← Bool.not_eq_true, isNegative_iff_le_toNat, isZero_iff_toNat, Nat.not_le]

/-! ### The listing, by what Fetch and Decode find -/

theorem listedStep_of_not_backed {s : State} (hb : ¬s.backed s.pc) :
    listedStep s = .fault (.addressOutOfRange s.pc.toNat { s with mar := s.pc }) :=
  if_pos (Nat.not_lt.mp hb)

/-- The listing asks whether there is no word at an address, the handlers whether there is one (20_memory.md R32). -/
theorem ite_words_le (s : State) (a : Addr) (o p : Outcome) :
    (if s.memSize.words ≤ a.toNat then o else p) = if s.backed a then p else o := by
  rw [← ite_not]
  simp only [Nat.not_le]

/-- A word whose opcode the default table leaves free falls to the listing's last arm (30_encoding.md R58). -/
theorem listedStep_of_free {s : State} (hb : s.backed s.pc)
    (hl : Config.defaultTable.lookup (opcode s.nextWord) = none) :
    listedStep s = .fault (.invalidInstruction (opcode s.nextWord) (afterDecode s)) := by
  have hw : s.mem.readWord s.pc.toNat = s.nextWord := rfl
  have hfree := (defaultTable_lookup_eq_none_iff _).mp hl
  have hop : BitVec.ofNat 4 (s.nextWord.toNat / 4096) = opcode s.nextWord := by
    rw [← toNat_opcode, BitVec.ofNat_toNat, BitVec.setWidth_eq]
  rw [toNat_opcode] at hfree
  simp only [listedStep, if_neg (Nat.not_le.mpr hb), hw, ← addr_eq_ofNat_mod, ← inc12_eq_ofNat_mod]
  split
  case h_10 =>
    rw [hop]
    rfl
  all_goals omega

/-- A word the default table knows selects the listing's arm of its handler, run in the state Fetch and Decode leave
(40_fde_cycle.md R84). -/
theorem listedStep_of_decodes {i : Instr} {s : State} (hb : s.backed s.pc) (hd : decodeWord s.nextWord = .ok i) :
    listedStep s = if holds i s then .next s else exec i (afterDecode s) := by
  have hw : s.mem.readWord s.pc.toNat = s.nextWord := rfl
  obtain ⟨hop, haddr⟩ := fields_of_decodeWord hd
  have hn : s.nextWord.toNat / 4096 = i.opcode.toNat := by rw [← toNat_opcode, hop]
  simp only [listedStep, if_neg (Nat.not_le.mpr hb), hw, hn, ← addr_eq_ofNat_mod, ← inc12_eq_ofNat_mod,
    ← inc12_inc12_eq_ofNat_mod, ← add16_eq_ofNat_mod, ← sub16_eq_ofNat_mod, ← isNegative_iff_le_toNat,
    ← isZero_iff_toNat, ← isPositive_iff_toNat, decide_eq_true_eq, ite_words_le]
  cases i with
  | load x =>
    obtain rfl : addr s.nextWord = x := haddr
    exact (exec_load (addr s.nextWord) (afterDecode s)).symm
  | store x =>
    obtain rfl : addr s.nextWord = x := haddr
    exact (exec_store (addr s.nextWord) (afterDecode s)).symm
  | add x =>
    obtain rfl : addr s.nextWord = x := haddr
    exact (exec_add (addr s.nextWord) (afterDecode s)).symm
  | subt x =>
    obtain rfl : addr s.nextWord = x := haddr
    exact (exec_subt (addr s.nextWord) (afterDecode s)).symm
  | input g =>
    cases hi : s.inp with
    | nil => simp [Instr.opcode, holds, hi]
    | cons v rest =>
      simp only [holds, hi]
      exact (exec_input_cons (s := afterDecode s) g hi).symm
  | output g => rfl
  | halt g => rfl
  | skipcond c g =>
    have hc : s.nextWord.toNat / 1024 % 4 = c.bits.toNat := by
      have h := congrArg BitVec.toNat haddr
      rw [toNat_addr, Instr.addressField, toNat_append_eq] at h
      omega
    rw [hc]
    have hx := exec_skipcond c g (afterDecode s)
    cases c <;> exact hx.symm
  | jump x =>
    obtain rfl : addr s.nextWord = x := haddr
    rfl

/-! ### Where a handler leaves `PC` -/

/-- Only SKIPCOND and JUMP write `PC` after Fetch (44_control.md R133). -/
theorem exec_next_pc {i : Instr} {s t : State} (h : exec i s = .next t) :
    (t.pc = s.pc ∧ i.opcode ≠ 9#4) ∨ (t.pc = inc12 s.pc ∧ i.opcode = 8#4) ∨
      (t.pc = i.addressField ∧ i.opcode = 9#4) := by
  rcases exec_next_cases h with ⟨_, _, hi, -, rfl⟩ | ⟨_, rfl, -, rfl⟩ | ⟨_, _, _, rfl, -, rfl⟩ | ⟨_, rfl, -, rfl⟩ |
    ⟨_, rfl, rfl⟩ | ⟨_, rfl, rfl⟩ | ⟨c, _, rfl, rfl⟩ | ⟨_, rfl, rfl⟩
  case inl =>
    rcases hi with ⟨rfl, -⟩ | ⟨rfl, -⟩ | ⟨rfl, -⟩ <;> exact .inl ⟨rfl, by simp [Instr.opcode]⟩
  case inr.inr.inr.inr.inr.inr.inl =>
    cases hs : skips c s.ac with
    | true => exact .inr (.inl ⟨by simp, rfl⟩)
    | false => exact .inl ⟨by simp, by simp [Instr.opcode]⟩
  case inr.inr.inr.inr.inr.inr.inr => exact .inr (.inr ⟨rfl, rfl⟩)
  all_goals exact .inl ⟨rfl, by simp [Instr.opcode]⟩

end Sys2Proof.Machine

namespace Sys2Proof.Config

/-! ### Registration -/

variable {η : Type} {t : OpcodeTable η} {op : Opcode}

theorem OpcodeTable.register_of_lookup_some {k : η} (h : η) (hl : t.lookup op = some k) :
    t.register op h = .error (.duplicateOpcode op) := by
  simp only [OpcodeTable.register, hl]

theorem OpcodeTable.register_of_lookup_none (h : η) (hl : t.lookup op = none) :
    t.register op h = .ok ((op, h) :: t) := by
  simp only [OpcodeTable.register, hl]

theorem OpcodeTable.lookup_cons_self (t : OpcodeTable η) (op : Opcode) (h : η) :
    OpcodeTable.lookup ((op, h) :: t) op = some h :=
  if_pos rfl

theorem OpcodeTable.lookup_cons_of_ne {o : Opcode} (t : OpcodeTable η) (h : η) (hne : o ≠ op) :
    OpcodeTable.lookup ((op, h) :: t) o = t.lookup o :=
  if_neg hne.symm

/-- A registration that succeeds leaves every registered opcode its handler (40_fde_cycle.md R87). -/
theorem OpcodeTable.lookup_of_register {t' : OpcodeTable η} {o : Opcode} {h k : η} (hr : t.register op h = .ok t')
    (hk : t.lookup o = some k) : t'.lookup o = some k := by
  cases hl : t.lookup op with
  | some k' => rw [register_of_lookup_some h hl] at hr; cases hr
  | none =>
    rw [register_of_lookup_none h hl] at hr
    cases hr
    have hne : o ≠ op := by
      rintro rfl
      rw [hl] at hk
      cases hk
    rw [lookup_cons_of_ne t h hne, hk]

/-- The default table holds a handler for each of the opcodes 1 to 9 (30_encoding.md R56). -/
theorem defaultTable_lookup_some {op : Opcode} (h1 : 1 ≤ op.toNat) (h9 : op.toNat ≤ 9) :
    ∃ h, defaultTable.lookup op = some h := by
  refine Option.ne_none_iff_exists'.mp fun hl => ?_
  have hfree := (defaultTable_lookup_eq_none_iff op).mp hl
  omega

end Sys2Proof.Config

namespace Sys2Proof.Machine

/-! ### The obligations -/

/-- Settles O22: the listing and the step have the same three cases, no word at `PC`, a free opcode, a handler. -/
theorem stepMeetsListing : Obligations.StepMeetsListing := by
  intro s he
  by_cases hb : s.backed s.pc
  · cases hl : Config.defaultTable.lookup (opcode s.nextWord) with
    | none => rw [step_of_free he hb hl, listedStep_of_free hb hl]
    | some h =>
      have hd := decodeWord_of_lookup_some hl
      rw [step_of_decodes he hb hd, listedStep_of_decodes hb hd]
  · rw [step_of_not_backed he hb, listedStep_of_not_backed hb]

/-- Settles O33: the step is a completed STORE, and Fetch reads the word it wrote. -/
theorem storedWordIsFetchedNext : Obligations.StoredWordIsFetchedNext := by
  intro s he hb hbn hw
  have hd : decodeWord s.nextWord = .ok (.store (inc12 s.pc)) := by rw [hw, decodeWord_encode]
  obtain ⟨t, hs, hpc, hsize, hmem⟩ : ∃ t, step s = .next t ∧ t.pc = inc12 s.pc ∧ t.memSize = s.memSize ∧
      t.mem = s.mem.writeWord (inc12 s.pc).toNat s.ac := ⟨_, step_store he hb hd hbn, rfl, rfl, rfl⟩
  have hnext : t.nextWord = s.ac := by
    rw [State.nextWord, State.word, hpc, hmem, Memory.readWord_writeWord, if_pos rfl]
  have hbt : t.backed t.pc := by rwa [State.backed, hpc, hsize]
  exact ⟨t, hs, hpc, hnext, by rw [fetch_of_backed hbt, hnext]⟩

/-- Settles O37: Fetch has put the successor in `PC`, and only SKIPCOND and JUMP write it after that. -/
theorem pcAfterCycle : Obligations.PcAfterCycle := by
  intro s t h
  rcases step_next_held_or_exec h with hheld | ⟨i, hop, haddr, hx⟩
  · exact .inl hheld
  · rw [hop, haddr]
    rcases exec_next_pc hx with ⟨hpc, hne⟩ | ⟨hpc, h8⟩ | hjump
    · exact .inr (.inl ⟨by rw [hpc]; exact toNat_inc12 s.pc, hne⟩)
    · exact .inr (.inr (.inl ⟨by rw [hpc]; exact toNat_inc12_inc12 s.pc, h8⟩))
    · exact .inr (.inr (.inr hjump))

/-- Settles O47: registration looks the opcode up first and adds only a free one, and the default table holds 1 to 9. -/
theorem duplicateRegistrationRefused : Obligations.DuplicateRegistrationRefused := by
  refine ⟨fun η t op h k hl => Config.OpcodeTable.register_of_lookup_some h hl, fun η t op h hl => ?_,
    fun op o h t hr h1 h9 => ?_, fun ext op h h1 h9 => ?_⟩
  · exact ⟨_, Config.OpcodeTable.register_of_lookup_none h hl, Config.OpcodeTable.lookup_cons_self t op h,
      fun o hne => Config.OpcodeTable.lookup_cons_of_ne t h hne⟩
  · obtain ⟨k, hk⟩ := Config.defaultTable_lookup_some h1 h9
    rw [hk, Config.OpcodeTable.lookup_of_register hr hk]
  · obtain ⟨k, hk⟩ := Config.defaultTable_lookup_some h1 h9
    simp only [registerExtension, hk]

/-- Settles O48: Execute looks in `EXT` only for an opcode the default table leaves free. -/
theorem extensionsKeepDefaultHandlers : Obligations.ExtensionsKeepDefaultHandlers := by
  intro ext s hb
  refine ⟨fun ⟨h1, h9⟩ => ?_, fun h hfree hx => ?_⟩
  · obtain ⟨k, hk⟩ := Config.defaultTable_lookup_some h1 h9
    have hd := decodeWord_of_lookup_some hk
    rw [cycle, cycleWith_of_decodes ext hb hd, cycleWith_of_decodes [] hb hd]
  · exact cycleWith_of_extension hb ((defaultTable_lookup_eq_none_iff _).mpr hfree) hx

/-- Settles O21: the state Fetch and Decode leave, written out. -/
theorem stepRunsDecodedInstruction : Obligations.StepRunsDecodedInstruction :=
  fun _ _ he hb hd => step_of_decodes he hb hd

/-- Settles O27: Fetch has written `MAR` and nothing else when it finds no word. -/
theorem fetchFaultKeepsPcAndIr : Obligations.FetchFaultKeepsPcAndIr :=
  fun _ he hb => step_of_not_backed he hb

end Sys2Proof.Machine
end

section
/-! The family 41_load_store.md: what LOAD and STORE write, how they stop at an address with no word, and the frames of the
instructions that reach memory. -/

namespace Sys2Proof.Machine

/-! ### What a memory instruction that completes leaves -/

/-- A checked access answers a next state only when its check passes, and then the one it names. -/
theorem ite_next_fault_eq_next {p : Prop} [Decidable p] {u t : State} {r : Fault} :
    (if p then .next u else .fault r : Outcome) = .next t ↔ p ∧ u = t := by
  by_cases hp : p <;> simp [hp]

/-- LOAD, ADD and SUBT that complete write `MAR`, `MBR` and `AC` alone (41_load_store.md R100; 42_arithmetic.md R110,
R111). -/
theorem exec_reading_next {i : Instr} {x : Addr} {s t : State} (hi : i = .load x ∨ i = .add x ∨ i = .subt x)
    (h : exec i s = .next t) : ∃ v : Word, t = { s with mar := x, mbr := s.word x, ac := v } := by
  rcases hi with rfl | rfl | rfl
  · rw [exec_load, ite_next_fault_eq_next] at h
    exact ⟨_, h.2.symm⟩
  · rw [exec_add, ite_next_fault_eq_next] at h
    exact ⟨_, h.2.symm⟩
  · rw [exec_subt, ite_next_fault_eq_next] at h
    exact ⟨_, h.2.symm⟩

/-- STORE that completes writes `MAR`, `MBR` and one word of memory (41_load_store.md R101, R102). -/
theorem exec_store_next {x : Addr} {s t : State} (h : exec (.store x) s = .next t) :
    t = { s with mar := x, mbr := s.ac, mem := s.mem.writeWord (effectiveAddress x).toNat s.ac } := by
  rw [exec_store, ite_next_fault_eq_next] at h
  exact h.2.symm

/-! ### The obligations -/

/-- Settles O8: the memory left is the one with `AC` written to the word at `X`. -/
theorem storeCopiesAcToWord : Obligations.StoreCopiesAcToWord := by
  intro x s hb
  refine ⟨s.mem.writeWord x.toNat s.ac, ?_, fun a => Memory.readWord_writeWord s.mem x.toNat a s.ac⟩
  rw [exec_store, if_pos hb]

/-- Settles O17: each of the three writes `MAR`, `MBR` and `AC` alone. -/
theorem readingInstructionsFrame : Obligations.ReadingInstructionsFrame := by
  intro i x s t hi h
  obtain ⟨v, rfl⟩ := exec_reading_next hi h
  exact ⟨rfl, rfl, rfl, rfl, rfl, rfl, rfl, rfl, fun _ => rfl⟩

/-- Settles O18: a byte outside the two of the word written reads as before. -/
theorem storeFrame : Obligations.StoreFrame := by
  intro x s t h
  obtain rfl := exec_store_next h
  refine ⟨rfl, rfl, rfl, rfl, rfl, rfl, rfl, rfl, rfl, fun k hhi hlo => ?_⟩
  rw [Memory.readByte_writeWord, if_neg hlo, if_neg hhi]

/-- Settles O7: the operand is read when `X` has a word, and LOAD stops with `MAR` written when it has none. -/
theorem loadCopiesWordToAc : Obligations.LoadCopiesWordToAc := by
  refine fun x s => ⟨fun hb => ?_, fun hb => ?_⟩
  · rw [exec_load, if_pos hb]
  · rw [exec_load, if_neg hb]

/-- Settles O9: `MAR` and `MBR` are written before the check of `MemWrite` fails. -/
theorem storeToUnbackedAddressFaults : Obligations.StoreToUnbackedAddressFaults := by
  intro x s hb
  rw [exec_store, if_neg hb]

end Sys2Proof.Machine
end

section
/-! The family 42_arithmetic.md: ADD and SUBT as the sum and the difference modulo 65536, and SUBT as the inverse of ADD. -/

namespace Sys2Proof.Machine

/-! ### The two operations of the ALU -/

/-- The difference as 42_arithmetic.md R111 has it: of two integers, reduced modulo 65536. -/
theorem sub16_eq_ofInt_emod (a b : Word) :
    sub16 a b = BitVec.ofInt 16 (((a.toNat : Int) - (b.toNat : Int)) % 65536) := by
  apply BitVec.eq_of_toNat_eq
  rw [sub16, BitVec.toNat_sub, BitVec.toNat_ofInt]
  omega

theorem sub16_add16_cancel (a b : Word) : sub16 (add16 a b) b = a :=
  BitVec.add_sub_cancel a b

/-- SUBT with a sum in `AC`, the word at `X` its second summand, leaves the first one (42_arithmetic.md R112). -/
theorem exec_subt_of_ac_eq_add16 {x : Addr} {s : State} {v : Word} (hb : s.backed x)
    (ha : s.ac = add16 v (s.word x)) :
    exec (.subt x) s = .next { s with mar := x, mbr := s.word x, ac := v } := by
  rw [exec_subt, if_pos hb, ha, sub16_add16_cancel]

/-! ### The obligations -/

/-- Settles O10: ADD reads `X` when it has a word, and stops with `MAR` written when it has none. -/
theorem addWrapsModulo65536 : Obligations.AddWrapsModulo65536 := by
  refine fun x s => ⟨fun hb => ?_, fun hb => ?_⟩
  · rw [exec_add, if_pos hb, add16_eq_ofNat_mod]
  · rw [exec_add, if_neg hb]

/-- Settles O11: SUBT reads `X` when it has a word, and stops with `MAR` written when it has none. -/
theorem subtWrapsModulo65536 : Obligations.SubtWrapsModulo65536 := by
  refine fun x s => ⟨fun hb => ?_, fun hb => ?_⟩
  · rw [exec_subt, if_pos hb, sub16_eq_ofInt_emod]
  · rw [exec_subt, if_neg hb]

/-- Settles O42: ADD leaves memory as it was, so SUBT takes away the word ADD put in. -/
theorem subtUndoesAdd : Obligations.SubtUndoesAdd := by
  intro x s hb
  have hadd : exec (.add x) s = .next { s with mar := x, mbr := s.word x, ac := add16 s.ac (s.word x) } := by
    rw [exec_add, if_pos hb]
  exact ⟨_, _, hadd, exec_subt_of_ac_eq_add16 (v := s.ac) hb rfl, rfl⟩

end Sys2Proof.Machine
end

section
/-! The family 43_io.md: the word an INPUT takes from `IN`, the word an OUTPUT adds to `OUT`, and both sequences over a
run. -/

namespace Sys2Proof.Machine

/-! ### The two handlers -/

/-- OUTPUT is one event and one word of `OUT` (43_io.md R121, R126). -/
theorem exec_output (g : Addr) (s : State) :
    exec (.output g) s = .next { s with outReg := s.ac, out := s.out ++ [s.ac] } := rfl

/-- INPUT takes the next word, or changes nothing when there is none (43_io.md R120, R123). -/
theorem exec_input_next {g : Addr} {s t : State} (h : exec (.input g) s = .next t) :
    t = s ∨ ∃ w rest, t = { s with inReg := w, ac := w, inp := rest } := by
  cases hi : s.inp with
  | nil =>
    simp only [exec, execInput, hostInput, hi] at h
    cases h
    exact .inl rfl
  | cons w rest =>
    rw [exec_input_cons g hi] at h
    cases h
    exact .inr ⟨w, rest, rfl⟩

/-! ### What a handler that runs to its end does to `IN`, `InREG` and `OUT` -/

/-- OUTPUT adds `AC` to `OUT`, and no other handler writes `OUT` (43_io.md R121, R122). -/
theorem exec_next_out {i : Instr} {s t : State} (h : exec i s = .next t) :
    t.out = if i.opcode = 6#4 then s.out ++ [s.ac] else s.out := by
  rcases exec_next_cases h with ⟨_, _, hi, -, rfl⟩ | ⟨_, rfl, -, rfl⟩ | ⟨_, _, _, rfl, -, rfl⟩ | ⟨_, rfl, -, rfl⟩ |
    ⟨_, rfl, rfl⟩ | ⟨_, rfl, rfl⟩ | ⟨_, _, rfl, rfl⟩ | ⟨_, rfl, rfl⟩
  · rcases hi with ⟨rfl, -⟩ | ⟨rfl, -⟩ | ⟨rfl, -⟩ <;> rfl
  all_goals rfl

/-- INPUT that does not hold moves the first word of `IN` to `AC` and `InREG`, and no other handler writes `IN` or `InREG`
(43_io.md R120, R122). -/
theorem exec_next_inp {i : Instr} {s t : State} (hh : holds i s = false) (h : exec i s = .next t) :
    if i.opcode = 5#4 then s.inp = t.ac :: t.inp ∧ t.inReg = t.ac else t.inp = s.inp ∧ t.inReg = s.inReg := by
  rcases exec_next_cases h with ⟨_, _, hi, -, rfl⟩ | ⟨_, rfl, -, rfl⟩ | ⟨_, _, _, rfl, hs, rfl⟩ | ⟨_, rfl, hs, rfl⟩ |
    ⟨_, rfl, rfl⟩ | ⟨_, rfl, rfl⟩ | ⟨_, _, rfl, rfl⟩ | ⟨_, rfl, rfl⟩
  case inl => rcases hi with ⟨rfl, -⟩ | ⟨rfl, -⟩ | ⟨rfl, -⟩ <;> exact ⟨rfl, rfl⟩
  case inr.inr.inl => exact ⟨hs, rfl⟩
  case inr.inr.inr.inl => simp [holds, hs] at hh
  all_goals exact ⟨rfl, rfl⟩

/-! ### What a whole step does to them -/

@[simp] theorem afterDecode_inReg (s : State) : (afterDecode s).inReg = s.inReg := rfl
@[simp] theorem afterDecode_inp (s : State) : (afterDecode s).inp = s.inp := rfl
@[simp] theorem afterDecode_out (s : State) : (afterDecode s).out = s.out := rfl

/-- `OUT` gains `AC` in an OUTPUT cycle and nothing in any other (43_io.md R121, R122). -/
theorem step_next_out {s t : State} (h : step s = .next t) :
    t.out = if opcode s.nextWord = 6#4 then s.out ++ [s.ac] else s.out := by
  rcases step_next_held_or_exec h with ⟨rfl, hop, -⟩ | ⟨i, hop, -, hx⟩
  · simp [hop]
  · simpa [hop] using exec_next_out hx

/-- An INPUT cycle holds or takes the first word of `IN`, and any other leaves `IN` and `InREG` alone (43_io.md R120, R122,
R123). -/
theorem step_next_inp {s t : State} (h : step s = .next t) :
    if opcode s.nextWord = 5#4 then (s.inp = [] ∧ t = s) ∨ (s.inp = t.ac :: t.inp ∧ t.inReg = t.ac)
      else t.inp = s.inp ∧ t.inReg = s.inReg := by
  obtain ⟨-, -, i, hd, hc⟩ := step_next_cases h
  have hop : opcode s.nextWord = i.opcode := (fields_of_decodeWord hd).1
  rw [hop]
  rcases hc with ⟨hh, rfl⟩ | ⟨hh, hx⟩
  · obtain ⟨h5, hinp⟩ := holds_iff.mp hh
    rw [if_pos h5]
    exact .inl ⟨hinp, rfl⟩
  · have hio := exec_next_inp ((holds_afterDecode i s).trans hh) hx
    by_cases h5 : i.opcode = 5#4
    · rw [if_pos h5] at hio ⊢
      exact .inr hio
    · rw [if_neg h5] at hio ⊢
      exact hio

/-! ### The two sequences over a run -/

/-- A step takes words from the front of `IN` only. -/
theorem step_next_inp_suffix {s t : State} (h : step s = .next t) : t.inp <:+ s.inp := by
  have hio := step_next_inp h
  split at hio
  · rcases hio with ⟨-, rfl⟩ | ⟨hinp, -⟩
    · exact List.suffix_rfl
    · rw [hinp]
      exact List.suffix_cons _ _
  · rw [hio.1]

/-- A step adds words to the end of `OUT` only. -/
theorem step_next_out_prefix {s t : State} (h : step s = .next t) : s.out <+: t.out := by
  rw [step_next_out h]
  split
  · exact List.prefix_append _ _
  · exact List.prefix_rfl

/-- A run that draws nothing takes words from the front of those at hand and adds words to the end of `OUT`. -/
theorem Reaches.inp_suffix_and_out_prefix {r t : Run} (h : Reaches (.finite []) r t) :
    t.state.inp <:+ r.state.inp ∧ r.state.out <+: t.state.out := by
  induction h with
  | refl => exact ⟨List.suffix_rfl, List.prefix_rfl⟩
  | @step t u _ hs ih =>
    rw [stepOn_next_iff, Run.fed_nil] at hs
    exact ⟨(step_next_inp_suffix hs.1).trans ih.1, ih.2.trans (step_next_out_prefix hs.1)⟩

/-! ### The obligations -/

/-- Settles O53: the run is one from its start with the words it draws at hand (O58), and that run draws nothing. -/
theorem inputAndOutputAreSequences : Obligations.InputAndOutputAreSequences := by
  intro input r t h
  obtain ⟨⟨taken, htaken⟩, more, hmore⟩ := (runIsRunOnDrawnPrefix input r t h).inp_suffix_and_out_prefix
  exact ⟨h.drawn_le, ⟨taken, htaken.symm⟩, more, hmore.symm⟩

/-- Settles O19: INPUT writes `InREG`, `AC` and `IN` alone or holds, and OUTPUT writes `OutREG` and `OUT` alone. -/
theorem inputOutputFrame : Obligations.InputOutputFrame := by
  refine ⟨fun g s t h => ?_, fun g s t h => ?_⟩
  · rcases exec_input_next h with rfl | ⟨w, rest, rfl⟩ <;>
      exact ⟨rfl, rfl, rfl, rfl, rfl, rfl, rfl, rfl, fun _ => rfl⟩
  · rw [exec_output] at h
    cases h
    exact ⟨rfl, rfl, rfl, rfl, rfl, rfl, rfl, rfl, rfl, fun _ => rfl⟩

/-- Settles O40: what a step does to `OUT`, and what it does to `IN` and `InREG`. -/
theorem oneEventPerInputOrOutput : Obligations.OneEventPerInputOrOutput :=
  fun _ _ h => ⟨step_next_out h, step_next_inp h⟩

/-- Settles O12: INPUT with a word at hand. -/
theorem inputTakesOneWord : Obligations.InputTakesOneWord :=
  fun g _ _ _ hi => exec_input_cons g hi

/-- Settles O13: OUTPUT never waits. -/
theorem outputEmitsAc : Obligations.OutputEmitsAc :=
  exec_output

end Sys2Proof.Machine
end

section
/-! The family 44_control.md: the signed tests of SKIPCOND, the next state of HALT, SKIPCOND and JUMP, and their frame. -/

namespace Sys2Proof.Machine

/-! ### The sign tests against the two's complement value of a word (42_arithmetic.md R113) -/

theorem isNegative_iff_toInt (v : Word) : isNegative v = true ↔ v.toInt < 0 := by
  have hv : v.toNat < 65536 := v.isLt
  rw [isNegative_iff_le_toNat, BitVec.toInt_eq_toNat_cond]
  split <;> omega

theorem isZero_iff_toInt (v : Word) : isZero v = true ↔ v.toInt = 0 := by
  have hv : v.toNat < 65536 := v.isLt
  rw [isZero_iff_toNat, BitVec.toInt_eq_toNat_cond]
  split <;> omega

theorem isPositive_iff_toInt (v : Word) : isPositive v = true ↔ 0 < v.toInt := by
  have hv : v.toNat < 65536 := v.isLt
  rw [isPositive_iff_toNat, BitVec.toInt_eq_toNat_cond]
  split <;> omega

/-! ### The three handlers -/

/-- HALT writes `STATE` alone (44_control.md R130). -/
theorem exec_halt (g : Addr) (s : State) : exec (.halt g) s = .next { s with execState := .halted } := rfl

/-- JUMP writes `PC` alone and does not check its target (44_control.md R132). -/
theorem exec_jump (x : Addr) (s : State) : exec (.jump x) s = .next { s with pc := x } := rfl

/-- SKIPCOND with its test read as a proposition `P` about `AC` (44_control.md R131). -/
theorem exec_skipcond_of_skips_iff {c : SkipCond} {s : State} {P : Prop} [Decidable P] (g : BitVec 10)
    (hP : skips c s.ac = true ↔ P) :
    exec (.skipcond c g) s =
      .next { s with pc := if P then BitVec.ofNat 12 ((s.pc.toNat + 1) % 4096) else s.pc } := by
  rw [exec_skipcond, ← inc12_eq_ofNat_mod]
  simp only [hP]

/-! ### The obligations -/

/-- Settles O15: each of the three tests is the signed one, and condition `0b11` has no test. -/
theorem skipcondSkipsBySignedAc : Obligations.SkipcondSkipsBySignedAc := fun g s =>
  ⟨exec_skipcond_of_skips_iff g (isNegative_iff_toInt s.ac),
    exec_skipcond_of_skips_iff g (isZero_iff_toInt s.ac),
    exec_skipcond_of_skips_iff g (isPositive_iff_toInt s.ac),
    exec_skipcond .reserved g s⟩

/-- Settles O20: HALT writes `STATE` alone, SKIPCOND and JUMP write `PC` alone. -/
theorem controlFrame : Obligations.ControlFrame := by
  rintro i s t (⟨g, rfl⟩ | ⟨c, g, rfl⟩ | ⟨x, rfl⟩) h
  · rw [exec_halt] at h
    cases h
    exact ⟨rfl, rfl, rfl, rfl, rfl, rfl, rfl, rfl, rfl, fun _ => rfl, fun _ => rfl, fun hne => absurd rfl (hne g)⟩
  · rw [exec_skipcond] at h
    cases h
    exact ⟨rfl, rfl, rfl, rfl, rfl, rfl, rfl, rfl, rfl, fun _ => rfl, nofun, fun _ => rfl⟩
  · rw [exec_jump] at h
    cases h
    exact ⟨rfl, rfl, rfl, rfl, rfl, rfl, rfl, rfl, rfl, fun _ => rfl, nofun, fun _ => rfl⟩

/-- Settles O14: HALT has no check. -/
theorem haltSetsHalted : Obligations.HaltSetsHalted :=
  exec_halt

/-- Settles O16: JUMP has no check. -/
theorem jumpSetsPc : Obligations.JumpSetsPc :=
  exec_jump

end Sys2Proof.Machine
end

section
/-! The family 60_exceptions.md: when a cycle raises `InvalidInstruction` and `AddressOutOfRange`, and what load rejects. -/

namespace Sys2Proof.Machine

/-! ### The address with no word, and the handlers that reach it -/

/-- Only the top address of a 4095-word memory has no word behind it (20_memory.md R33). -/
theorem State.not_backed_iff {s : State} {a : Addr} : ¬s.backed a ↔ s.memSize = .w4095 ∧ a = 0xFFF#12 := by
  have ha : a.toNat < 4096 := a.isLt
  rw [State.backed, ← BitVec.toNat_inj]
  cases s.memSize <;> simp [Config.MemSize.words] <;> omega

/-- `InvalidInstruction` comes from the dispatch, never from a handler (60_exceptions.md R141). -/
theorem exec_ne_invalidInstruction (i : Instr) (s : State) (op : Opcode) (u : State) :
    exec i s ≠ .fault (.invalidInstruction op u) := by
  intro h
  obtain ⟨_, -, ⟨-, hr⟩ | ⟨-, hr⟩⟩ := exec_fault_cases h <;> cases hr

/-- The handlers of opcodes 1 to 4 raise `AddressOutOfRange` when their address field has no word, and no handler raises it
otherwise (60_exceptions.md R142). -/
theorem exec_addressOutOfRange_iff {i : Instr} {s : State} {raw : Nat} :
    (∃ u, exec i s = .fault (.addressOutOfRange raw u)) ↔
      raw = i.addressField.toNat ∧ ¬s.backed i.addressField ∧ 1 ≤ i.opcode.toNat ∧ i.opcode.toNat ≤ 4 := by
  constructor
  · rintro ⟨u, h⟩
    obtain ⟨x, hb, ⟨hi, hr⟩ | ⟨rfl, hr⟩⟩ := exec_fault_cases h <;> cases hr
    · rcases hi with rfl | rfl | rfl <;> exact ⟨rfl, hb, by simp [Instr.opcode]⟩
    · exact ⟨rfl, hb, by simp [Instr.opcode]⟩
  · rintro ⟨rfl, hb, h1, h4⟩
    cases i with
    | load x => exact ⟨_, (exec_load x s).trans (if_neg hb)⟩
    | store x => exact ⟨_, (exec_store x s).trans (if_neg hb)⟩
    | add x => exact ⟨_, (exec_add x s).trans (if_neg hb)⟩
    | subt x => exact ⟨_, (exec_subt x s).trans (if_neg hb)⟩
    | _ => simp [Instr.opcode] at h4

/-- A handler that faults is the step's: an INPUT that holds has no fault to hide (43_io.md R123). -/
theorem step_of_exec_fault {i : Instr} {s : State} {r : Fault} (he : s.execState = .executing) (hb : s.backed s.pc)
    (hd : decodeWord s.nextWord = .ok i) (hx : exec i (afterDecode s) = .fault r) : step s = .fault r := by
  have hh : ¬holds i s = true := by
    obtain ⟨_, -, ⟨rfl | rfl | rfl, -⟩ | ⟨rfl, -⟩⟩ := exec_fault_cases hx <;> simp [holds]
  rw [step_of_decodes he hb hd, if_neg hh, hx]

/-! ### What load rejects -/

theorem load_of_lt_length {image : List Byte} {s : State} (l : Launch) (h : 2 * s.memSize.words < image.length) :
    State.load image l s = .error (.programTooLarge ((image.length + 1) / 2)) :=
  if_pos h

theorem load_of_odd_length {image : List Byte} {s : State} (l : Launch) (h : image.length ≤ 2 * s.memSize.words)
    (hodd : image.length % 2 = 1) : State.load image l s = .error (.oddImage image.length) := by
  rw [State.load, if_neg (Nat.not_lt.mpr h), if_pos hodd]

/-! ### The obligations -/

/-- Settles O25: of the three places a step can fault in, only the dispatch raises it, for an opcode the table leaves
free. -/
theorem invalidInstructionExactly : Obligations.InvalidInstructionExactly := by
  refine ⟨fun s op u he hb => ⟨fun h => ?_, ?_⟩, exec_ne_invalidInstruction⟩
  · cases hl : Config.defaultTable.lookup (opcode s.nextWord) with
    | none =>
      rw [step_of_free he hb hl] at h
      cases h
      exact ⟨rfl, (defaultTable_lookup_eq_none_iff _).mp hl, rfl⟩
    | some k =>
      rw [step_of_decodes he hb (decodeWord_of_lookup_some hl)] at h
      split at h
      · cases h
      · exact absurd h (exec_ne_invalidInstruction _ _ _ _)
  · rintro ⟨rfl, hfree, rfl⟩
    exact step_of_free he hb ((defaultTable_lookup_eq_none_iff _).mpr hfree)

/-- Settles O26: of the three places a step can fault in, Fetch and the handlers of opcodes 1 to 4 raise it, at the one
address with no word. -/
theorem addressOutOfRangeExactly : Obligations.AddressOutOfRangeExactly := by
  intro s raw he
  constructor
  · rintro ⟨u, h⟩
    obtain ⟨-, ⟨hb, hr⟩ | ⟨-, ⟨_, -, hr⟩ | ⟨i, hd, hx⟩⟩⟩ := step_fault_cases h
    · cases hr
      obtain ⟨hsize, hpc⟩ := State.not_backed_iff.mp hb
      exact ⟨congrArg BitVec.toNat hpc, hsize, .inl hpc⟩
    · cases hr
    · obtain ⟨rfl, hb, h14⟩ := exec_addressOutOfRange_iff.mp ⟨u, hx⟩
      obtain ⟨hsize, hfield⟩ := State.not_backed_iff.mp hb
      obtain ⟨hop, haddr⟩ : opcode s.nextWord = i.opcode ∧ addr s.nextWord = i.addressField := fields_of_decodeWord hd
      rw [hop, haddr]
      exact ⟨congrArg BitVec.toNat hfield, hsize, .inr ⟨h14.1, h14.2, hfield⟩⟩
  · rintro ⟨rfl, hsize, hreach⟩
    by_cases hb : s.backed s.pc
    · obtain hpc | ⟨h1, h4, hfield⟩ := hreach
      · exact absurd hb (State.not_backed_iff.mpr ⟨hsize, hpc⟩)
      · obtain ⟨k, hk⟩ := Config.defaultTable_lookup_some h1 (by omega)
        have hd := decodeWord_of_lookup_some hk
        obtain ⟨hop, haddr⟩ := fields_of_decodeWord hd
        rw [hop] at h1 h4
        rw [haddr] at hfield
        obtain ⟨u, hx⟩ := exec_addressOutOfRange_iff.mpr
          ⟨(congrArg BitVec.toNat hfield).symm, State.not_backed_iff (s := afterDecode s).mpr ⟨hsize, hfield⟩, h1, h4⟩
        exact ⟨u, step_of_exec_fault he hb hd hx⟩
    · obtain ⟨-, hpc⟩ := State.not_backed_iff.mp hb
      refine ⟨{ s with mar := s.pc }, ?_⟩
      rw [step_of_not_backed he hb, hpc]
      rfl

/-- Settles O46: the size check comes first, and the size in words of an even image is half its length. -/
theorem loadRejectsOversizedImage : Obligations.LoadRejectsOversizedImage := by
  refine ⟨fun image l s n hlen hn => ?_, fun image l s hlen hodd => load_of_odd_length l hlen.le hodd⟩
  have hsize : (image.length + 1) / 2 = n := by omega
  rw [load_of_lt_length l (by omega), hsize]

end Sys2Proof.Machine
end

section
/-! The family 70_reset_and_hazards.md: the memory and the registers load leaves, reset as a load, and the invariant along
every run from a load. -/

namespace Sys2Proof.Machine

/-! ### The memory of a launch state -/

/-- A loaded word is its two bytes, high byte first (70_reset_and_hazards.md R172). -/
theorem toNat_readWord_launchState (size : Config.MemSize) (image : List Byte) (l : Launch) (i : Nat) :
    ((launchState size image l).mem.readWord i).toNat =
      (image.getD (2 * i) 0#8).toNat * 256 + (image.getD (2 * i + 1) 0#8).toNat := by
  rw [Memory.toNat_readWord, readByte_launchState, readByte_launchState]
  rfl

/-- Every word past the image is zero (70_reset_and_hazards.md R172). -/
theorem readWord_launchState_of_le (size : Config.MemSize) {image : List Byte} (l : Launch) {i : Nat}
    (h : image.length ≤ 2 * i) : (launchState size image l).mem.readWord i = 0#16 := by
  apply BitVec.eq_of_toNat_eq
  rw [toNat_readWord_launchState, List.getD_eq_default _ _ h, List.getD_eq_default _ _ (Nat.le_succ_of_le h)]
  rfl

theorem Memory.ofBytes_replicate_zero (start n : Nat) : Memory.ofBytes start (List.replicate n 0#8) = [] := by
  induction n generalizing start with
  | zero => rfl
  | succ n ih => exact ih (start + 1)

/-- Zero bytes at an image's end add nothing to the canonical memory, which lists no zero byte. -/
theorem Memory.ofBytes_append_zeros (start : Nat) (image : List Byte) (n : Nat) :
    Memory.ofBytes start (image ++ List.replicate n 0#8) = Memory.ofBytes start image := by
  induction image generalizing start with
  | nil => exact Memory.ofBytes_replicate_zero start n
  | cons b image ih => simp only [List.cons_append, Memory.ofBytes, ih]

theorem launchState_append_zeros (size : Config.MemSize) (image : List Byte) (n : Nat) (l : Launch) :
    launchState size (image ++ List.replicate n 0#8) l = launchState size image l := by
  simp only [launchState, Memory.ofBytes_append_zeros]

/-! ### The invariant from a load on -/

/-- A launch state meets the invariant: its memory lists bytes of the image alone, and the image fits
(70_reset_and_hazards.md R171). -/
theorem launchState_inv {size : Config.MemSize} {image : List Byte} (l : Launch) (h : image.length ≤ 2 * size.words) :
    (launchState size image l).Inv := by
  refine ⟨Memory.wf_ofBytes 0 image, fun c hc => ?_⟩
  calc c.1 < 0 + image.length := (Memory.mem_ofBytes hc).2
    _ = image.length := Nat.zero_add _
    _ ≤ 2 * size.words := h

/-- An accepted load establishes the invariant and keeps the memory size. -/
theorem load_inv {image : List Byte} {l : Launch} {s t : State} (h : State.load image l s = .ok t) :
    t.Inv ∧ t.memSize = s.memSize := by
  obtain ⟨hfits, -, rfl⟩ := load_eq_ok.mp h
  exact ⟨launchState_inv l hfits, rfl⟩

/-- A draw leaves memory and its size alone. -/
theorem Run.fed_mem (input : InputSequence) (r : Run) :
    (r.fed input).state.mem = r.state.mem ∧ (r.fed input).state.memSize = r.state.memSize := by
  rcases Run.fed_cases input r with ⟨hf, -⟩ | ⟨w, -, -, hf⟩ <;> rw [hf] <;> exact ⟨rfl, rfl⟩

/-- A step of a run, with its draw, keeps the invariant and the memory size. -/
theorem stepOn_next_inv {input : InputSequence} {r t : Run} (h : stepOn input r = .next t) (hr : r.state.Inv) :
    t.state.Inv ∧ t.state.memSize = r.state.memSize := by
  obtain ⟨hs, -⟩ := stepOn_next_iff.mp h
  obtain ⟨hm, hz⟩ := Run.fed_mem input r
  exact ⟨(stepKeepsInvariant _ (hr.of_mem_eq hm hz)).1 _ hs, (step_next_memSize hs).trans hz⟩

/-- A run from a state that meets the invariant keeps it and the memory size. -/
theorem Reaches.inv {input : InputSequence} {r t : Run} (h : Reaches input r t) (hr : r.state.Inv) :
    t.state.Inv ∧ t.state.memSize = r.state.memSize := by
  induction h with
  | refl => exact ⟨hr, rfl⟩
  | step _ hs ih =>
    obtain ⟨hinv, hz⟩ := stepOn_next_inv hs ih.1
    exact ⟨hinv, hz.trans ih.2⟩

/-! ### The obligations -/

/-- Settles O44: the launch state's memory reads as the image and then zeros, and lists no zero byte. -/
theorem loadReplacesMemory : Obligations.LoadReplacesMemory := by
  refine ⟨fun image l s t h => ?_, fun image n l s t u ht hu => ?_⟩
  · obtain ⟨-, -, rfl⟩ := load_eq_ok.mp h
    exact ⟨rfl, fun i _ => toNat_readWord_launchState _ _ _ i, fun i hi => readWord_launchState_of_le _ l hi⟩
  · obtain ⟨-, -, rfl⟩ := load_eq_ok.mp ht
    obtain ⟨-, -, rfl⟩ := load_eq_ok.mp hu
    exact launchState_append_zeros _ _ _ _

/-- Settles O45: the launch state takes nothing from the prior state but the memory size. -/
theorem loadIgnoresPriorState : Obligations.LoadIgnoresPriorState := by
  intro image l s s' hsize heven hfits
  refine ⟨launchState s.memSize image l, load_eq_ok.mpr ⟨hfits, heven, rfl⟩, load_eq_ok.mpr ?_, rfl, rfl, rfl, rfl, rfl,
    rfl, rfl, rfl⟩
  rw [← hsize]
  exact ⟨hfits, heven, rfl⟩

/-- Settles O51: a load establishes the invariant and a run keeps it. -/
theorem reachableFromLoadMeetsInvariant : Obligations.ReachableFromLoadMeetsInvariant := by
  intro input image l s s₀ t hload hreach
  obtain ⟨hinv₀, hsize₀⟩ := load_inv hload
  obtain ⟨hinv, hsize⟩ := hreach.inv hinv₀
  exact ⟨hinv, hsize.trans hsize₀⟩

/-- Settles O43: reset is the load of the empty image, which leaves every word zero (O44). -/
theorem resetLeavesLoadedState : Obligations.ResetLeavesLoadedState := by
  obtain ⟨hexec, -, hzero⟩ := loadReplacesMemory.1 _ _ _ _ (reset_eq_load State.reset rfl)
  exact ⟨rfl, rfl, rfl, rfl, rfl, hexec, rfl, rfl, fun a => hzero a (Nat.zero_le _), rfl⟩

/-- Settles O49: reset is the load of the empty image. -/
theorem resetMeetsInvariant : Obligations.ResetMeetsInvariant :=
  (load_inv (reset_eq_load State.reset rfl)).1

end Sys2Proof.Machine
end

section
/-! The family other: `InREG` and `OutREG` are invisible to a program, a held INPUT, what every fault leaves, the ends of the
driving loop, and the words and addresses of the tables. -/

namespace Sys2Proof.Machine

/-! ### States that differ in `InREG` and `OutREG` alone (10_state.md R15, R16) -/

/-- The state with other values in `InREG` and `OutREG`. -/
def State.withIo (s : State) (a b : Word) : State := { s with inReg := a, outReg := b }

theorem State.eq_withIo_of_hideIo_eq {s t : State} (h : s.hideIo = t.hideIo) : t = s.withIo t.inReg t.outReg :=
  calc t = t.hideIo.withIo t.inReg t.outReg := rfl
    _ = s.hideIo.withIo t.inReg t.outReg := by rw [h]
    _ = s.withIo t.inReg t.outReg := rfl

@[simp] theorem holds_withIo (i : Instr) (s : State) (a b : Word) : holds i (s.withIo a b) = holds i s := by
  cases i <;> rfl

theorem sameButIo_ite {p : Prop} [Decidable p] {o o' f f' : Outcome} (ho : sameButIo o o') (hf : sameButIo f f') :
    sameButIo (if p then o else f) (if p then o' else f') := by
  by_cases hp : p
  · rwa [if_pos hp, if_pos hp]
  · rwa [if_neg hp, if_neg hp]

/-- INPUT with no word at hand changes nothing (43_io.md R123). -/
theorem exec_input_nil {s : State} (g : Addr) (hi : s.inp = []) : exec (.input g) s = .next s := by
  simp only [exec, execInput, hostInput, hi]

/-- No handler reads what `InREG` or `OutREG` held before it (43_io.md R120, R121). -/
theorem exec_sameButIo (i : Instr) (s : State) (a b : Word) : sameButIo (exec i s) (exec i (s.withIo a b)) := by
  cases i with
  | load x =>
    rw [exec_load, exec_load]
    exact sameButIo_ite rfl rfl
  | store x =>
    rw [exec_store, exec_store]
    exact sameButIo_ite rfl rfl
  | add x =>
    rw [exec_add, exec_add]
    exact sameButIo_ite rfl rfl
  | subt x =>
    rw [exec_subt, exec_subt]
    exact sameButIo_ite rfl rfl
  | input g =>
    cases hi : s.inp with
    | nil =>
      rw [exec_input_nil g hi, exec_input_nil (s := s.withIo a b) g hi]
      rfl
    | cons w rest =>
      rw [exec_input_cons g hi, exec_input_cons (s := s.withIo a b) g hi]
      rfl
  | output g => rfl
  | halt g => rfl
  | skipcond c g =>
    rw [exec_skipcond, exec_skipcond]
    rfl
  | jump x => rfl

/-- Fetch, the dispatch and the hold do not look at `InREG` and `OutREG` (40_fde_cycle.md R81 to R83). -/
theorem step_sameButIo (s : State) (a b : Word) : sameButIo (step s) (step (s.withIo a b)) := by
  cases he : s.execState with
  | halted =>
    rw [step_halted he, step_halted (s := s.withIo a b) he]
    rfl
  | executing =>
    by_cases hb : s.backed s.pc
    · cases hl : Config.defaultTable.lookup (opcode s.nextWord) with
      | none =>
        rw [step_of_free he hb hl, step_of_free (s := s.withIo a b) he hb hl]
        rfl
      | some k =>
        have hd := decodeWord_of_lookup_some hl
        rw [step_of_decodes he hb hd, step_of_decodes (s := s.withIo a b) he hb hd, holds_withIo]
        exact sameButIo_ite rfl (exec_sameButIo _ (afterDecode s) a b)
    · rw [step_of_not_backed he hb, step_of_not_backed (s := s.withIo a b) he hb]
      rfl

/-! ### The held INPUT (43_io.md R123) -/

/-- An INPUT that holds completes with the word the host then supplies. -/
theorem step_supplyInput_of_input {s : State} {g : Addr} (w : Word) (he : s.execState = .executing)
    (hb : s.backed s.pc) (hd : decodeWord s.nextWord = .ok (.input g)) (hi : s.inp = []) :
    step (s.supplyInput w) =
      .next { s with mar := g, ir := s.nextWord, pc := inc12 s.pc, inReg := w, ac := w, inp := [] } :=
  have hinp : (s.supplyInput w).inp = [w] := by simp [State.supplyInput, hi]
  step_input_cons (s := s.supplyInput w) he hb hd hinp

/-! ### What a fault leaves (60_exceptions.md R149) -/

/-- A handler that faults has written `MAR`, and STORE `MBR` before it. -/
theorem exec_fault_left {i : Instr} {s : State} {r : Fault} (h : exec i s = .fault r) :
    ∃ x, r.left = { s with mar := x } ∨ i.opcode = 2#4 ∧ r.left = { s with mar := x, mbr := s.ac } := by
  obtain ⟨x, -, ⟨-, rfl⟩ | ⟨rfl, rfl⟩⟩ := exec_fault_cases h
  · exact ⟨x, .inl rfl⟩
  · exact ⟨x, .inr ⟨rfl, rfl⟩⟩

/-- A step that faults has written registers of Fetch and Decode, and in a STORE cycle `MBR`. -/
theorem step_fault_left {s : State} {r : Fault} (h : step s = .fault r) :
    ∃ mar ir pc, r.left = { s with mar := mar, ir := ir, pc := pc } ∨
      opcode r.left.ir = 2#4 ∧ r.left = { s with mar := mar, ir := ir, pc := pc, mbr := s.ac } := by
  obtain ⟨-, ⟨-, rfl⟩ | ⟨-, ⟨_, -, rfl⟩ | ⟨i, hd, hx⟩⟩⟩ := step_fault_cases h
  · exact ⟨_, _, _, .inl rfl⟩
  · exact ⟨_, _, _, .inl rfl⟩
  · obtain ⟨x, hl | ⟨hi, hl⟩⟩ := exec_fault_left hx
    · exact ⟨_, _, _, .inl hl⟩
    · refine ⟨_, _, _, .inr ⟨?_, hl⟩⟩
      rw [hl]
      exact (fields_of_decodeWord hd).1.trans hi

/-! ### The driving loop (40_fde_cycle.md R88, R90) -/

/-- A Halted state ends the loop at once, whatever the bound. -/
theorem drive_of_isFinal {r : Run} (input : InputSequence) (h : r.state.isFinal) (n : Nat) :
    drive input n r = .ended r := by
  cases n <;> simp only [drive, h]

/-- Only an executing state has a step (40_fde_cycle.md R88). -/
theorem execState_of_stepOn {input : InputSequence} {r : Run} (h : stepOn input r ≠ .refused .notExecuting) :
    r.state.execState = .executing := by
  cases he : r.state.execState with
  | halted => exact absurd (stepOn_halted he) h
  | executing => rfl

theorem drive_succ_of_next {input : InputSequence} {r t : Run} (h : stepOn input r = .next t) (n : Nat) :
    drive input (n + 1) r = drive input n t := by
  have he : r.state.execState = .executing := execState_of_stepOn (input := input) (by simp [h])
  simp only [drive, he, h]

theorem drive_succ_of_fault {input : InputSequence} {r : Run} {q : Fault} (h : stepOn input r = .fault q) (n : Nat) :
    drive input (n + 1) r = .faulted q := by
  have he : r.state.execState = .executing := execState_of_stepOn (input := input) (by simp [h])
  simp only [drive, he, h]

/-- A run may be read from its first step on. -/
theorem Reaches.of_step {input : InputSequence} {r t u : Run} (hs : stepOn input r = .next t)
    (h : Reaches input t u) : Reaches input r u := by
  induction h with
  | refl => exact .step (.refl r) hs
  | step _ hs' ih => exact .step ih hs'

/-- The loop ends only in a Halted state it reached by steps. -/
theorem drive_ended {input : InputSequence} {n : Nat} {r t : Run} (h : drive input n r = .ended t) :
    t.state.isFinal ∧ Reaches input r t := by
  fun_induction drive input n r with
  | case1 r hf =>
    cases h
    exact ⟨hf, .refl _⟩
  | case3 n r hf =>
    cases h
    exact ⟨hf, .refl _⟩
  | case4 n r he u hs ih =>
    obtain ⟨hf, hr⟩ := ih h
    exact ⟨hf, hr.of_step hs⟩
  | _ => cases h

/-- The loop faults only by the fault of a step it reached. -/
theorem drive_faulted {input : InputSequence} {n : Nat} {r : Run} {q : Fault} (h : drive input n r = .faulted q) :
    ∃ t, Reaches input r t ∧ stepOn input t = .fault q := by
  fun_induction drive input n r with
  | case4 n r he u hs ih =>
    obtain ⟨t, hr, ht⟩ := ih h
    exact ⟨t, hr.of_step hs, ht⟩
  | case5 n r he q' hs =>
    cases h
    exact ⟨r, .refl r, hs⟩
  | _ => cases h

/-- A loop that ended stays ended under every greater bound. -/
theorem drive_add_of_ended {input : InputSequence} {n : Nat} {r t : Run} (h : drive input n r = .ended t) (k : Nat) :
    drive input (n + k) r = .ended t := by
  fun_induction drive input n r with
  | case1 r hf =>
    cases h
    exact drive_of_isFinal input hf _
  | case3 n r hf =>
    cases h
    exact drive_of_isFinal input hf _
  | case4 n r he u hs ih => rw [Nat.succ_add, drive_succ_of_next hs, ih h]
  | _ => cases h

/-- With as many calls as a run has steps, and some more, the loop comes to the run's end with those it has more. -/
theorem Reaches.drive_add {input : InputSequence} {r t : Run} (h : Reaches input r t) :
    ∃ n, ∀ k, drive input (n + k) r = drive input k t := by
  induction h with
  | refl => exact ⟨0, fun k => by rw [Nat.zero_add]⟩
  | @step t u _ hs ih =>
    obtain ⟨n, hn⟩ := ih
    refine ⟨n + 1, fun k => ?_⟩
    calc drive input (n + 1 + k) r = drive input (n + (k + 1)) r := by rw [Nat.add_assoc, Nat.add_comm 1 k]
      _ = drive input (k + 1) t := hn (k + 1)
      _ = drive input k u := drive_succ_of_next hs k

/-! ### The obligations -/

/-- Settles O52: the two states are one with two pairs of values in `InREG` and `OutREG`, which no step looks at. -/
theorem ioRegistersAreInvisible : Obligations.IoRegistersAreInvisible := by
  intro s t h
  rw [State.eq_withIo_of_hideIo_eq h]
  exact step_sameButIo s t.inReg t.outReg

/-- Settles O23: the hold, and the INPUT with the one word supplied. -/
theorem heldInputWaitsForWord : Obligations.HeldInputWaitsForWord := fun _ g w he hb hd hi =>
  ⟨step_of_awaitsInput ((State.awaitsInput_iff _).mpr ⟨he, hb, g, hd, hi⟩), step_supplyInput_of_input w he hb hd hi⟩

/-- Settles O28: a step that faults has written `MAR`, `IR` and `PC`, and in a STORE cycle `MBR`; it started executing. -/
theorem faultLeavesAcIoAndMemory : Obligations.FaultLeavesAcIoAndMemory := by
  intro s r h
  have he : s.execState = .executing := (step_fault_cases h).1
  obtain ⟨mar, ir, pc, hl | ⟨hop, hl⟩⟩ := step_fault_left h
  · rw [hl]
    exact ⟨rfl, rfl, rfl, rfl, rfl, rfl, rfl, he, .inl rfl⟩
  · rw [hl] at hop ⊢
    exact ⟨rfl, rfl, rfl, rfl, rfl, rfl, rfl, he, .inr ⟨hop, rfl⟩⟩

/-- Settles O41: the tests against the signed value (O15) and against the ranges. -/
theorem signedReadingIsTwosComplement : Obligations.SignedReadingIsTwosComplement := fun v =>
  ⟨isNegative_iff_toInt v, isNegative_iff_le_toNat v, isZero_iff_toInt v, isPositive_iff_toInt v,
    (isPositive_iff_toNat v).trans (by omega)⟩

/-- Settles O54: each clause is what the loop does at one bound, or over a run. -/
theorem driveEndsOnlyAtHalt : Obligations.DriveEndsOnlyAtHalt := by
  intro input r
  refine ⟨fun n t h => ?_, fun _ _ => drive_faulted, drive_of_isFinal input, fun n t hs => ?_,
    fun n _ hs => drive_succ_of_fault hs n, fun t hr ht => ?_⟩
  · obtain ⟨hf, hr⟩ := drive_ended h
    exact ⟨hf, hr, drive_add_of_ended h⟩
  · have hn := drive_succ_of_next hs n
    exact ⟨hn, fun ht => hn.trans (drive_of_isFinal input ht n)⟩
  · obtain ⟨n, hn⟩ := hr.drive_add
    exact ⟨n, (hn 0).trans (drive_of_isFinal input ht 0)⟩

/-- Settles O4: each word's opcode is looked up in the default table. -/
theorem listedWordsDecode : Obligations.ListedWordsDecode :=
  ⟨rfl, rfl, rfl, rfl, rfl, rfl, rfl, rfl, rfl, rfl, rfl, rfl, rfl⟩

/-- Settles O24: a step while Halted is refused. -/
theorem noStepWhileHalted : Obligations.NoStepWhileHalted :=
  fun _ => step_halted

/-- Settles O29: no other 12-bit address reaches 4095. -/
theorem onlyTopAddressUnbacked : Obligations.OnlyTopAddressUnbacked :=
  fun _ _ => State.not_backed_iff

end Sys2Proof.Machine
end
